-- ==== Sys2Proof/Word.lean ====
section
/-! DEFINITION. Word.lean: the Word, the width parameter XLEN and the Word range (spec/00_scope.md R6, R9). -/

namespace Sys2Proof

/-- A datum of CORE: a signed integer (R9). Rules compute in `Z` and narrow only where they say so, so the carrier
is `Int`; that a value lies in `WMIN .. WMAX` is the check `Xlen.holds`. There are no bytes and no bit fields (R44). -/
abbrev Word := Int

/-- The parameter `XLEN` (R6): "an integer >= 32, or inf". `finite k` is `XLEN = 32 + k`, so no illegal width exists. -/
inductive Xlen where
  | finite (extra : Nat)
  | inf
deriving DecidableEq, Repr, Inhabited

/-- `WMIN` of R6; `none` stands for `-inf`. -/
def Xlen.wmin : Xlen → Option Int
  | .finite k => some (-Int.ofNat (Nat.pow 2 (31 + k)))
  | .inf => none

/-- `WMAX` of R6; `none` stands for `+inf`. -/
def Xlen.wmax : Xlen → Option Int
  | .finite k => some (Int.ofNat (Nat.pow 2 (31 + k)) - 1)
  | .inf => none

/-- Is `v` at least the lower end of a range, `none` being no end? -/
def aboveMin (v : Int) : Option Int → Bool
  | some lo => decide (lo ≤ v)
  | none => true

/-- Is `v` at most the upper end of a range, `none` being no end? -/
def belowMax (v : Int) : Option Int → Bool
  | some hi => decide (v ≤ hi)
  | none => true

/-- `v` is a Word: `WMIN <= v <= WMAX` (R9). The first disjunct is the range of `XLEN = 32`, which every legal `XLEN`
contains (R6), so it changes nothing (`Laws/Word.lean`, `holds_eq_range`); it stands first so that a small result is
seen to be a Word while `XLEN` is open. -/
def Xlen.holds (x : Xlen) (v : Int) : Bool :=
  (decide (-2147483648 ≤ v) && decide (v ≤ 2147483647)) || (aboveMin v x.wmin && belowMax v x.wmax)

end Sys2Proof
end

