-- ==== Sys2Proof/Config.lean ====
section
/-! DEFINITION. Config.lean: what is fixed for one implementation of CORE (spec/00_scope.md R6). -/

namespace Sys2Proof

/-- `XLEN` of the machine at reset: OPEN (R6, D1: no value is chosen), so a constant without a body about which nothing
can be proved but that it is a legal `XLEN`. Log entry 1, DESIGN CHOICE, safe. Claims quantify over every
`State.xlen`; this constant only says what `State.reset` holds there. -/
opaque Config.xlen : Xlen

/-- The default of the construction argument `susp` (R27: "its default is `0`"). -/
def Config.defaultSusp : Bool := false

/-- Instruction cells a step may need: the longest instruction has 4 Words (R60). -/
def Config.maxLength : Nat := 4

end Sys2Proof
end

