-- ==== Sys2Proof/Syntax.lean ====
section
/-! DEFINITION. Syntax.lean: the instructions of the opcode map (spec/30_encoding.md R60, R64, R67), one constructor
per row of spec/opcode_table.json. -/

namespace Sys2Proof

/-- The two addressing modes (R80 to R82). -/
inductive Mode where
  /-- mode digit 0: the parameter Word is a memory index -/
  | positional
  /-- mode digit 1: the parameter Word is the value -/
  | immediate
deriving DecidableEq, Repr

/-- A resolved parameter of role `R` (R80): its mode and its parameter Word. -/
structure Operand where
  mode : Mode
  word : Word
deriving DecidableEq, Repr

/-- The role of a parameter (R64). -/
inductive Role where
  | read
  | write
deriving DecidableEq, Repr

/-- The five formats (R64). -/
inductive Format where
  | rrw
  | w
  | r
  | rr
  | z
deriving DecidableEq, Repr

/-- The roles of a format's parameters, parameter 1 first (R64). -/
def Format.roles : Format → List Role
  | .rrw => [.read, .read, .write]
  | .w => [.write]
  | .r => [.read]
  | .rr => [.read, .read]
  | .z => []

/-- The nine instructions (R67). A parameter of role `W` is positional in every instruction the decoder accepts (R69,
R85), so it is its parameter Word alone: an immediate destination cannot be written down. -/
inductive Instr where
  /-- R100 `ADD a, b, dst` -/
  | add (a b : Operand) (dst : Word)
  /-- R101 `MUL a, b, dst` -/
  | mul (a b : Operand) (dst : Word)
  /-- R110 `IN dst` -/
  | input (dst : Word)
  /-- R111 `OUT a` -/
  | output (a : Operand)
  /-- R120 `JT cond, target` -/
  | jt (cond target : Operand)
  /-- R121 `JF cond, target` -/
  | jf (cond target : Operand)
  /-- R130 `LT a, b, dst` -/
  | lt (a b : Operand) (dst : Word)
  /-- R131 `EQ a, b, dst` -/
  | eq (a b : Operand) (dst : Word)
  /-- R140 `HLT` -/
  | hlt
deriving DecidableEq, Repr

/-- The opcode of an instruction: the first column of R67's map. -/
def Instr.opcode : Instr → Nat
  | .add _ _ _ => 1
  | .mul _ _ _ => 2
  | .input _ => 3
  | .output _ => 4
  | .jt _ _ => 5
  | .jf _ _ => 6
  | .lt _ _ _ => 7
  | .eq _ _ _ => 8
  | .hlt => 99

/-- The mnemonic of an instruction (R72). -/
def Instr.mnemonic : Instr → String
  | .add _ _ _ => "ADD"
  | .mul _ _ _ => "MUL"
  | .input _ => "IN"
  | .output _ => "OUT"
  | .jt _ _ => "JT"
  | .jf _ _ => "JF"
  | .lt _ _ _ => "LT"
  | .eq _ _ _ => "EQ"
  | .hlt => "HLT"

/-- The format of an instruction (R64). -/
def Instr.format : Instr → Format
  | .add _ _ _ => .rrw
  | .mul _ _ _ => .rrw
  | .input _ => .w
  | .output _ => .r
  | .jt _ _ => .rr
  | .jf _ _ => .rr
  | .lt _ _ _ => .rrw
  | .eq _ _ _ => .rrw
  | .hlt => .z

/-- The length in Words: the number of cells occupied (R60). `HLT` has length 1 and advances `IP` by 0 (R141). -/
def Instr.length (i : Instr) : Nat := 1 + i.format.roles.length

/-- The parameter Words, parameter 1 first (R60, R65). -/
def Instr.params : Instr → List Word
  | .add a b dst => [a.word, b.word, dst]
  | .mul a b dst => [a.word, b.word, dst]
  | .input dst => [dst]
  | .output a => [a.word]
  | .jt cond target => [cond.word, target.word]
  | .jf cond target => [cond.word, target.word]
  | .lt a b dst => [a.word, b.word, dst]
  | .eq a b dst => [a.word, b.word, dst]
  | .hlt => []

/-- The modes of the parameters, parameter 1 first; a parameter of role `W` is positional (R64). -/
def Instr.modes : Instr → List Mode
  | .add a b _ => [a.mode, b.mode, .positional]
  | .mul a b _ => [a.mode, b.mode, .positional]
  | .input _ => [.positional]
  | .output a => [a.mode]
  | .jt cond target => [cond.mode, target.mode]
  | .jf cond target => [cond.mode, target.mode]
  | .lt a b _ => [a.mode, b.mode, .positional]
  | .eq a b _ => [a.mode, b.mode, .positional]
  | .hlt => []

end Sys2Proof
end

