-- ==== Sys2Proof/Decode.lean ====
section
/-! DEFINITION. Decode.lean: the decoder (spec/30_encoding.md R61 to R70, spec/40_operand_resolver_and_step.md R88),
then the encoder (R63, R71), then the host's table-word reading. -/

namespace Sys2Proof

/-- Why a list of Words is no instruction, in the vocabulary of R88 and R176. -/
inductive Reject where
  /-- cell `i` of the instruction is not there: 0 the instruction Word itself (R87), `i` parameter `i` (R88) -/
  | missing (i : Nat)
  /-- `w tmod 100` is no opcode, which every negative Word is (R66, R68) -/
  | unknownOpcode
  /-- the mode digit of parameter `i` is neither 0 nor 1 (R69) -/
  | badMode (i : Nat)
  /-- the mode digit of the write parameter `i` is 1 (R69) -/
  | immediateDest (i : Nat)
deriving DecidableEq, Repr

/-- What the decoder answers: an instruction and the Words after it, or a rejection by name. -/
inductive Decoded where
  | instr (i : Instr) (rest : List Word)
  | reject (r : Reject)
deriving DecidableEq, Repr

/-- `opcode = w tmod 100` (R61); `tmod` is the remainder of the division truncated toward zero (R10). -/
def opcodeOf (w : Word) : Int := Int.tmod w 100

/-- `m1 = (w tdiv 100) tmod 10` (R62). -/
def mode1 (w : Word) : Int := Int.tmod (Int.tdiv w 100) 10

/-- `m2 = (w tdiv 1000) tmod 10` (R62). -/
def mode2 (w : Word) : Int := Int.tmod (Int.tdiv w 1000) 10

/-- `m3 = (w tdiv 10000) tmod 10` (R62). -/
def mode3 (w : Word) : Int := Int.tmod (Int.tdiv w 10000) 10

/-- The mode a digit names (R81, R82); any other digit names none (R85). -/
def modeOf (m : Int) : Option Mode :=
  if m = 0 then some .positional else if m = 1 then some .immediate else none

/-- Resolve read parameter `i` with mode digit `m` against the Words still available (the loop body of R88): first
that its cell is there, then that its mode digit is legal. -/
def withRead (i : Nat) (m : Int) (ps : List Word) (k : Operand → List Word → Decoded) : Decoded :=
  match ps with
  | [] => .reject (.missing i)
  | p :: rest =>
    match modeOf m with
    | some mode => k ⟨mode, p⟩ rest
    | none => .reject (.badMode i)

/-- Resolve write parameter `i` (the loop body of R88): as `withRead`, and then that the mode is not 1 (R85). D4 gives
`1103` as an example of `IN` with `m2` ignored, but by R62 its `m1` is 1, an immediate destination, which R69, R85 and
R110 make `Decode`: the rules are followed, not the example (log entry 12, DESIGN CHOICE, safe). -/
def withWrite (i : Nat) (m : Int) (ps : List Word) (k : Word → List Word → Decoded) : Decoded :=
  match ps with
  | [] => .reject (.missing i)
  | p :: rest =>
    match modeOf m with
    | some .positional => k p rest
    | some .immediate => .reject (.immediateDest i)
    | none => .reject (.badMode i)

/-- Format `RRW` (R64): `a` read, `b` read, `dst` written. -/
def decodeRRW (w : Word) (ps : List Word) (mk : Operand → Operand → Word → Instr) : Decoded :=
  withRead 1 (mode1 w) ps fun a ps1 =>
    withRead 2 (mode2 w) ps1 fun b ps2 =>
      withWrite 3 (mode3 w) ps2 fun dst rest => .instr (mk a b dst) rest

/-- Format `W` (R64). -/
def decodeW (w : Word) (ps : List Word) (mk : Word → Instr) : Decoded :=
  withWrite 1 (mode1 w) ps fun dst rest => .instr (mk dst) rest

/-- Format `R` (R64). -/
def decodeR (w : Word) (ps : List Word) (mk : Operand → Instr) : Decoded :=
  withRead 1 (mode1 w) ps fun a rest => .instr (mk a) rest

/-- Format `RR` (R64). -/
def decodeRR (w : Word) (ps : List Word) (mk : Operand → Operand → Instr) : Decoded :=
  withRead 1 (mode1 w) ps fun cond ps1 =>
    withRead 2 (mode2 w) ps1 fun target rest => .instr (mk cond target) rest

/-- The decode phase (R88) on the Words from the instruction Word to the end of memory: the opcode is checked before
any parameter Word is looked at, then parameters in increasing number. Mode digits of absent parameters and digits of
weight `10^5` and above are never examined (R70). -/
def decode : List Word → Decoded
  | [] => .reject (.missing 0)
  | w :: ps =>
    if opcodeOf w = 1 then decodeRRW w ps .add
    else if opcodeOf w = 2 then decodeRRW w ps .mul
    else if opcodeOf w = 3 then decodeW w ps .input
    else if opcodeOf w = 4 then decodeR w ps .output
    else if opcodeOf w = 5 then decodeRR w ps .jt
    else if opcodeOf w = 6 then decodeRR w ps .jf
    else if opcodeOf w = 7 then decodeRRW w ps .lt
    else if opcodeOf w = 8 then decodeRRW w ps .eq
    else if opcodeOf w = 99 then .instr .hlt ps
    else .reject .unknownOpcode

/-- The mode digit of a mode (R81, R82). -/
def Mode.digit : Mode → Int
  | .positional => 0
  | .immediate => 1

/-- The mode digits as a number, lowest digit first: `m1 + 10*m2 + 100*m3` (R63). -/
def modesNumber : List Mode → Int
  | [] => 0
  | m :: ms => m.digit + 10 * modesNumber ms

/-- The canonical instruction Word `opcode + 100*m1 + 1000*m2 + 10000*m3` (R63, R71). -/
def Instr.word (i : Instr) : Int := i.opcode + 100 * modesNumber i.modes

/-- The canonical encoding: the instruction Word and then the parameter Words (R60, R71, R73). -/
def encode (i : Instr) : List Word := i.word :: i.params

/-- The instruction Word the host's table word stands for: the nonnegative number its `nbits` low bits hold. The table
gives an instruction Word only, as decimal digits, and no bits (R63, R75). Log entry 8, DESIGN CHOICE, safe. -/
def tableWord (nbits w : Nat) : Word := Int.ofNat (w % Nat.pow 2 nbits)

/-- The Words of the host's table instruction: its instruction Word, then parameter Words of zero. -/
def tableWords (nbits w : Nat) : List Word := [tableWord nbits w, 0, 0, 0]

/-- What the decoder reads from the host's table word (log entry 8). -/
def decodeTableWord (nbits w : Nat) : Option Instr :=
  match decode (tableWords nbits w) with
  | .instr i _ => some i
  | .reject _ => none

end Sys2Proof
end

