-- ==== Sys2Proof/Machine/State.lean ====
section
/-! DEFINITION. Machine/State.lean: the complete state of one machine (spec/10_state.md R21), its reset value (R34) and
the ways the model can stop. -/

namespace Sys2Proof.Machine

/-- `ERR`'s values other than `None` (R30, R170). `addr` is the mathematical integer it is, negative ones included. -/
inductive FaultRecord where
  /-- R171 -/
  | decode (ip : Nat) (word : Word)
  /-- R172 -/
  | outOfBounds (addr : Int) (ip : Nat)
  /-- R173 -/
  | starvedInput (ip : Nat)
  /-- R174 -/
  | overflow (ip : Nat)
deriving DecidableEq, Repr

/-- `STOP`'s values (R31). -/
inductive StopCause where
  /-- no run has ended since `LOAD` -/
  | none
  /-- a `HLT` was executed -/
  | halt
  /-- an `OUT` was executed with `SUSP = 1` -/
  | suspend
  /-- an instruction faulted, or `RUN` was requested with `ERR != None` -/
  | fault
deriving DecidableEq, Repr

/-- `MEM` (R22) in one canonical form: the cells that hold a Word other than 0, by strictly rising address. A cell in
bounds that is not listed holds 0. Cells are Words, not bytes (R44). Log entry 2. -/
abbrev Memory := List (Nat × Word)

/-- All the state of one machine: the table of R21, and the parameter `XLEN`. Plain data; no registers (R20). -/
structure State where
  /-- `XLEN`, constant (R6). The model's own field: the parameter "the model takes as an argument". Log entry 1. -/
  xlen : Xlen
  /-- `MEM` (R22): code and data alike -/
  mem : Memory
  /-- `N`, the number of cells, constant after `LOAD` (R23) -/
  n : Nat
  /-- `IP` (R24) -/
  ip : Nat
  /-- `INQ`, head first (R25) -/
  inq : List Word
  /-- `OUTQ`, head first (R26) -/
  outq : List Word
  /-- `SUSP`, constant after `LOAD` (R27) -/
  susp : Bool
  /-- `HALT`, the only flag (R28) -/
  halt : Bool
  /-- `BUSY` (R29) -/
  busy : Bool
  /-- `ERR` (R30); `none` is the spec's own value `None` -/
  err : Option FaultRecord
  /-- `STOP` (R31) -/
  stop : StopCause
deriving DecidableEq, Repr

/-- Why the model stops with a fault: never, so there is no constructor. CORE's own faults (R170) are no stops: they end
the run in a next state that holds `ERR` (R177, log entry 7). Safe. -/
inductive Fault where
deriving DecidableEq, Repr

/-- Why the model gives an instruction no meaning. -/
inductive Refusal where
  /-- Raised by an arm of `exec` that rejects its instruction by name. No arm does: all nine are modelled. Safe. -/
  | notModelled (mnemonic : String)
deriving DecidableEq, Repr

/-- The three outcomes of one step, for this machine. -/
abbrev Result := Host.Outcome State Fault Refusal

/-- The machine after reset: R34's table for `LOAD([], susp)` with `susp` omitted. The image is an argument of `LOAD`
that the spec leaves to the host, and memory lists nothing here (log entry 3, DESIGN CHOICE); `XLEN` is open (log
entry 1, DESIGN CHOICE); every other value is R34's. -/
def State.reset : State where
  xlen := Config.xlen
  mem := []
  n := 0
  ip := 0
  inq := []
  outq := []
  susp := Config.defaultSusp
  halt := false
  busy := false
  err := Option.none
  stop := .none

end Sys2Proof.Machine

/-- A free value: in a state of `BUSY = 1`, `HALT = 1` and `ERR = None` with `SUSP = 1` and a `HLT` at `IP`, whether the
step that set `HALT` was that `HLT` or an `OUT`. R152's `STOP` depends on it and no state records it (R21). A constant
without a body; no run of a loaded machine stops between steps in such a state. Log entry 6, safe. -/
opaque Sys2Proof.Config.lastStepWasHlt : Sys2Proof.Machine.State → Bool
end

