-- ==== Sys2Proof/Machine/Ops.lean ====
section
/-! DEFINITION. Machine/Ops.lean: the named operations over memory, the pointer, the queues and the control state; taking
a fault; the end of a run. Everything that reads or writes State goes through these. -/

namespace Sys2Proof.Machine

/-! ### Memory -/

/-- The Word of cell `a`; an unlisted cell holds 0 (log entry 2). -/
def Memory.get : Memory → Nat → Word
  | [], _ => 0
  | (b, v) :: m, a => if a = b then v else Memory.get m a

/-- List `v` at address `a` in front of `m`, unless it is the Word an unlisted cell holds. -/
def Memory.cons (a : Nat) (v : Word) (m : Memory) : Memory := if v = 0 then m else (a, v) :: m

/-- Make cell `a` hold `v`, keeping the canonical form. -/
def Memory.set : Memory → Nat → Word → Memory
  | [], a, v => Memory.cons a v []
  | (b, u) :: m, a, v =>
    if a < b then Memory.cons a v ((b, u) :: m)
    else if a = b then Memory.cons a v m
    else (b, u) :: Memory.set m a v

/-- Every address listed is above `lo - 1` and below `n`, addresses rise strictly, and no cell listed holds 0. -/
def Memory.wfFrom (n : Nat) : Nat → Memory → Bool
  | _, [] => true
  | lo, (a, v) :: m => decide (lo ≤ a) && decide (a < n) && decide (v ≠ 0) && Memory.wfFrom n (a + 1) m

/-- The canonical form of a memory of `n` cells. -/
def Memory.wf (n : Nat) (m : Memory) : Bool := Memory.wfFrom n 0 m

/-- The canonical memory whose cells from address `a` on are `image` (R34, `MEM[i] = image[i]`). -/
def Memory.ofImage : Nat → List Word → Memory
  | _, [] => []
  | a, v :: vs => Memory.cons a v (Memory.ofImage (a + 1) vs)

/-- The cells `a`, `a + 1`, ... that are in bounds, `k` of them at most. -/
def Memory.window (m : Memory) (n : Nat) : Nat → Nat → List Word
  | _, 0 => []
  | a, k + 1 => if a < n then Memory.get m a :: Memory.window m n (a + 1) k else []

/-- "in bounds": `0 <= a < N` (R9). -/
def inBounds (s : State) (a : Int) : Bool := decide (0 ≤ a) && decide (a < s.n)

/-- `MemRead(a, 1)` (R11, R43): the Word at `a`, or `OutOfBounds(a, ip0)`. `ip0` is `s.ip`: the pointer holds the index
of the current instruction until its commit (R24). -/
def memRead (s : State) (a : Int) : Except FaultRecord Word :=
  if inBounds s a then .ok (s.mem.get a.toNat) else .error (.outOfBounds a s.ip)

/-- The commit of `MemWrite(d, 1, v)` at an address already checked (R11, R91). -/
def storeWord (s : State) (d : Nat) (v : Word) : State := { s with mem := s.mem.set d v }

/-! ### The pointer and the queues -/

/-- `IP <- a`. -/
def setIp (s : State) (a : Nat) : State := { s with ip := a }

/-- `IP <- ip0 + k` (R91). -/
def advance (s : State) (k : Nat) : State := setIp s (s.ip + k)

/-- `INQ <- q`. -/
def setInq (s : State) (q : List Word) : State := { s with inq := q }

/-- `OUTQ <- OUTQ ++ [v]` (R26). -/
def pushOutq (s : State) (v : Word) : State := { s with outq := s.outq ++ [v] }

/-! ### Fetch -/

/-- The Words the decode phase may look at: the cells from `IP` on that exist, as many as the longest instruction has
(R60, R87, R88). They are read from `MEM` at every step, so every earlier store is seen (R53). -/
def fetchWords (s : State) : List Word := s.mem.window s.n s.ip Config.maxLength

/-- The fault a rejection of the decoder raises (R87, R88): a cell that is not there is `OutOfBounds(ip0 + i, ip0)`,
everything else is `Decode(ip0, w)` with `w` the instruction Word (R171). -/
def rejectRecord (s : State) : Reject → FaultRecord
  | .missing i => .outOfBounds (Int.ofNat (s.ip + i)) s.ip
  | .unknownOpcode => .decode s.ip (s.mem.get s.ip)
  | .badMode _ => .decode s.ip (s.mem.get s.ip)
  | .immediateDest _ => .decode s.ip (s.mem.get s.ip)

/-! ### Faults -/

/-- Taking a fault (R90, R177): `ERR` gets the record, the run ends with `STOP <- Fault` and `BUSY <- 0`; `MEM`, `IP`,
`INQ`, `OUTQ` and `HALT` are as before the step. Control goes nowhere: there is no handler, and no return from a fault
exists (R179), so there is no operation beside this one. -/
def takeFault (e : FaultRecord) (s : State) : State := { s with err := some e, stop := .fault, busy := false }

/-- The end of the execute phase: commit the state it computed, or take the fault it raised (R90, R91). -/
def finish (s : State) : Except FaultRecord State → Result
  | .ok t => .next t
  | .error e => .next (takeFault e s)

/-! ### The run -/

/-- The start of an accepted run (R150): `BUSY <- 1`. -/
def startRun (s : State) : State := { s with busy := true }

/-- The end of a run that ends through the flag (R152): `STOP <- c`, `HALT <- 0`, `BUSY <- 0`, nothing else. -/
def endRun (c : StopCause) (s : State) : State := { s with stop := c, halt := false, busy := false }

/-- The way a run ends when the instruction just committed left `HALT = 1` (R152). Only `HLT` and `OUT` set the flag
(R28). -/
def haltCause : Instr → Option StopCause
  | .add _ _ _ => none
  | .mul _ _ _ => none
  | .input _ => none
  | .output _ => some .suspend
  | .jt _ _ => none
  | .jf _ _ => none
  | .lt _ _ _ => none
  | .eq _ _ _ => none
  | .hlt => some .halt

/-- The run loop's test after the step of instruction `i` (R150, R152): the run ends when `HALT = 1`. Log entry 5. -/
def loopTest (i : Instr) (t : State) : State :=
  match t.halt, haltCause i with
  | true, some c => endRun c t
  | _, _ => t

/-- `STOP` of a run that ends because its loop (R150) finds `HALT = 1` or `ERR != None` before a step: `Fault` with a
record in `ERR` (R31, R152); else by what set `HALT` (R28): under `SUSP = 0` only a `HLT`; a `HLT` leaves `IP` on itself
(R141), so with no `HLT` at `IP` it was an `OUT`; with one, and `SUSP = 1`, the spec does not tell, and the value is
free (log entry 6). -/
def leavingCause (s : State) : StopCause :=
  match s.err, s.susp, decode (fetchWords s) with
  | some _, _, _ => .fault
  | none, false, _ => .halt
  | none, true, .instr .hlt _ => if Config.lastStepWasHlt s then .halt else .suspend
  | none, true, _ => .suspend

/-! ### Placing an instruction for the host's question -/

/-- Store the Words of an instruction from address `a` on. -/
def storeWords : State → Nat → List Word → State
  | s, _, [] => s
  | s, a, v :: vs => storeWords (storeWord s a v) (a + 1) vs

/-- `s` inside a run, with `words` at `IP` and memory long enough to hold them (log entry 8): the load and the `RUN` that
bring an instruction to execution. -/
def placeInstruction (s : State) (words : List Word) : State :=
  { storeWords s s.ip words with
    n := max s.n (s.ip + words.length), busy := true, halt := false, err := none }

end Sys2Proof.Machine
end

