-- ==== Sys2Proof/Machine/Flags.lean ====
section
/-! DEFINITION. Machine/Flags.lean: `HALT`, the only flag (spec/10_state.md R28), the range check of a result, which sets
no flag but faults (spec/41_arithmetic.md R103), and the truth values of the comparisons (spec/44_compare.md). -/

namespace Sys2Proof.Machine

/-- `HALT <- 1` (R140). -/
def setHalt (s : State) : State := { s with halt := true }

/-- `if SUSP == 1 then HALT <- 1` (R111, R113). -/
def haltWhenSuspending (s : State) : State := if s.susp then setHalt s else s

/-- Narrow an exact result to a Word (R9, R103): a result that is no Word is `Overflow(ip0)`; it never wraps. -/
def narrow (s : State) (r : Int) : Except FaultRecord Word :=
  if s.xlen.holds r then .ok r else .error (.overflow s.ip)

/-- The Word a comparison writes: 1 if it holds, else 0 (R130, R131). -/
def truthWord (p : Bool) : Word := if p then 1 else 0

end Sys2Proof.Machine
end

