-- ==== Sys2Proof/Machine/Operands.lean ====
section
/-! DEFINITION. Machine/Operands.lean: the operand resolver (spec/40_operand_resolver_and_step.md R80 to R85) and the
operand shapes the instructions share (R89). -/

namespace Sys2Proof.Machine

/-- `read(i)` (R83): the parameter Word itself in mode 1, the cell it indexes in mode 0. -/
def readOperand (s : State) (o : Operand) : Except FaultRecord Word :=
  match o.mode with
  | .immediate => .ok o.word
  | .positional => memRead s o.word

/-- `waddr(i)` (R84). -/
def writeAddr (s : State) (p : Word) : Except FaultRecord Nat :=
  if inBounds s p then .ok p.toNat else .error (.outOfBounds p s.ip)

/-- The execute and commit phases of a format `RRW` instruction (R89, R91) whose result of the two read values is
`f va vb`: read `a`, read `b`, check `dst`, compute the result, then store it and advance by 4. -/
def binary (f : Word → Word → Except FaultRecord Word) (a b : Operand) (dst : Word) (s : State) :
    Except FaultRecord State :=
  match readOperand s a with
  | .error e => .error e
  | .ok va =>
    match readOperand s b with
    | .error e => .error e
    | .ok vb =>
      match writeAddr s dst with
      | .error e => .error e
      | .ok d =>
        match f va vb with
        | .error e => .error e
        | .ok r => .ok (advance (storeWord s d r) 4)

/-- The jump to `t` (R123): a negative target faults at the jump, any other is written to `IP` with no check against
`N`. -/
def jumpTo (s : State) (t : Word) : Except FaultRecord State :=
  if t < 0 then .error (.outOfBounds t s.ip) else .ok (setIp s t.toNat)

/-- The execute and commit phases of a format `RR` instruction (R120, R121): read `cond`; if the jump is taken read
`target` (only then, R122) and jump, else advance by 3. -/
def jumpWhen (taken : Word → Bool) (cond target : Operand) (s : State) : Except FaultRecord State :=
  match readOperand s cond with
  | .error e => .error e
  | .ok c =>
    if taken c then
      match readOperand s target with
      | .error e => .error e
      | .ok t => jumpTo s t
    else .ok (advance s 3)

end Sys2Proof.Machine
end

