-- ==== Sys2Proof/Machine/Arithmetic.lean ====
section
/-! DEFINITION. Machine/Arithmetic.lean: `ADD` and `MUL` (spec/41_arithmetic.md). -/

namespace Sys2Proof.Machine

/-- R100: the exact sum of the two read values, or `Overflow(ip0)`. -/
def execAdd (a b : Operand) (dst : Word) (s : State) : Result :=
  finish s (binary (fun va vb => narrow s (va + vb)) a b dst s)

/-- R101: the exact signed product of the two read values, or `Overflow(ip0)`. -/
def execMul (a b : Operand) (dst : Word) (s : State) : Result :=
  finish s (binary (fun va vb => narrow s (va * vb)) a b dst s)

end Sys2Proof.Machine
end

