-- ==== Sys2Proof/Machine/Compare.lean ====
section
/-! DEFINITION. Machine/Compare.lean: `LT` and `EQ` (spec/44_compare.md). -/

namespace Sys2Proof.Machine

/-- R130: 1 if `va < vb` as signed integers, else 0; it cannot overflow. -/
def execLt (a b : Operand) (dst : Word) (s : State) : Result :=
  finish s (binary (fun va vb => .ok (truthWord (decide (va < vb)))) a b dst s)

/-- R131: 1 if `va == vb`, else 0. -/
def execEq (a b : Operand) (dst : Word) (s : State) : Result :=
  finish s (binary (fun va vb => .ok (truthWord (decide (va = vb)))) a b dst s)

end Sys2Proof.Machine
end

