-- ==== Sys2Proof/Machine/ControlFlow.lean ====
section
/-! DEFINITION. Machine/ControlFlow.lean: `JT` and `JF` (spec/43_control_flow.md). -/

namespace Sys2Proof.Machine

/-- R120: taken when the condition is not 0, negative values included. -/
def execJt (cond target : Operand) (s : State) : Result :=
  finish s (jumpWhen (fun c => decide (c ≠ 0)) cond target s)

/-- R121: taken when the condition is 0. -/
def execJf (cond target : Operand) (s : State) : Result :=
  finish s (jumpWhen (fun c => decide (c = 0)) cond target s)

end Sys2Proof.Machine
end

