-- ==== Sys2Proof/Machine/Halt.lean ====
section
/-! DEFINITION. Machine/Halt.lean: `HLT` (spec/45_halt.md). -/

namespace Sys2Proof.Machine

/-- R140, R141: `HALT <- 1`; `IP` stays at the `HLT`. The run loop then ends the run (`loopTest`). -/
def execHlt (s : State) : Result := .next (setHalt s)

end Sys2Proof.Machine
end

