-- ==== Sys2Proof/Machine/InputOutput.lean ====
section
/-! DEFINITION. Machine/InputOutput.lean: `IN` and `OUT` (spec/42_io.md). -/

namespace Sys2Proof.Machine

/-- The execute and commit phases of `IN` (R110): the destination is checked before the queue, so a fault pops
nothing (R90). -/
def input (dst : Word) (s : State) : Except FaultRecord State :=
  match writeAddr s dst with
  | .error e => .error e
  | .ok d =>
    match s.inq with
    | [] => .error (.starvedInput s.ip)
    | v :: q => .ok (advance (storeWord (setInq s q) d v) 2)

/-- R110. -/
def execIn (dst : Word) (s : State) : Result := finish s (input dst s)

/-- The execute and commit phases of `OUT` (R111, R113). -/
def output (a : Operand) (s : State) : Except FaultRecord State :=
  match readOperand s a with
  | .error e => .error e
  | .ok v => .ok (haltWhenSuspending (advance (pushOutq s v) 2))

/-- R111. -/
def execOut (a : Operand) (s : State) : Result := finish s (output a s)

end Sys2Proof.Machine
end

