-- ==== Sys2Proof/Machine/Dispatch.lean ====
section
/-! DEFINITION. Machine/Dispatch.lean: one arm per instruction: the execute and commit phases (R89, R91) of the decoded
instruction at `IP`. -/

namespace Sys2Proof.Machine

def exec (i : Instr) (s : State) : Host.Outcome State Fault Refusal :=
  match i with
  | .add a b dst => Sys2Proof.Machine.execAdd a b dst s
  | .mul a b dst => Sys2Proof.Machine.execMul a b dst s
  | .input dst => Sys2Proof.Machine.execIn dst s
  | .output a => Sys2Proof.Machine.execOut a s
  | .jt cond target => Sys2Proof.Machine.execJt cond target s
  | .jf cond target => Sys2Proof.Machine.execJf cond target s
  | .lt a b dst => Sys2Proof.Machine.execLt a b dst s
  | .eq a b dst => Sys2Proof.Machine.execEq a b dst s
  | .hlt => Sys2Proof.Machine.execHlt s

end Sys2Proof.Machine
end

