-- ==== Sys2Proof/Machine/Step.lean ====
section
/-! DEFINITION. Machine/Step.lean: one iteration of the run loop (spec/46_run_control_and_host.md R150), that is one step
(spec/40_operand_resolver_and_step.md R86) with the end of the run when it ends there (R152); and the host's placing of an
instruction. -/

namespace Sys2Proof.Machine

/-- One step. An idle machine waits for the host and keeps all its state (R189, log entry 4); inside a run the
instruction at `IP` is fetched, decoded and executed, or the decode phase's fault is taken (R86 to R91), and then the
loop tests `HALT` (R150, R152, log entry 5). At `BUSY = 1` with `HALT = 1` or `ERR != None` no step is taken (R86): the
loop is left and the run ends (R150, R152, log entry 6). -/
def step (s : State) : Host.Outcome State Fault Refusal :=
  match s.busy, s.halt, s.err with
  | false, _, _ => .next s
  | true, false, none =>
    match decode (fetchWords s) with
    | .reject r => .next (takeFault (rejectRecord s r) s)
    | .instr i _ =>
      match exec i s with
      | .next t => .next (loopTest i t)
      | .fault f => .fault f
      | .refused r => .refused r
  | true, _, _ => .next (endRun (leavingCause s) s)

/-- `s` inside a run with the host's table instruction where `step` fetches next (log entry 8). -/
def State.withFetchWord (s : State) (nbits w : Nat) : State := placeInstruction s (tableWords nbits w)

end Sys2Proof.Machine
end

