-- ==== Sys2Proof/Machine/Assembler.lean ====
section
/-! DEFINITION. Machine/Assembler.lean: the assembler of spec/30_encoding.md R72 to R74, from lines to the image's Words.
The notation is the spec's own (D15) and no part of the machine (R8); its text form is not modelled (log entry 10). -/

namespace Sys2Proof.Machine

/-- The `v` of an operand (R73): a signed decimal integer or a label. -/
inductive AsmValue where
  | num (v : Word)
  | label (name : String)
deriving DecidableEq, Repr

/-- An operand (R73). -/
inductive AsmOperand where
  /-- `[v]`: positional -/
  | pos (v : AsmValue)
  /-- `#v`: immediate -/
  | imm (v : AsmValue)
deriving DecidableEq, Repr

/-- An instruction (R72). A `W` operand must be written `[v]` (R73), so it is its `v` alone. -/
inductive AsmInstr where
  | add (a b : AsmOperand) (dst : AsmValue)
  | mul (a b : AsmOperand) (dst : AsmValue)
  | input (dst : AsmValue)
  | output (a : AsmOperand)
  | jt (cond target : AsmOperand)
  | jf (cond target : AsmOperand)
  | lt (a b : AsmOperand) (dst : AsmValue)
  | eq (a b : AsmOperand) (dst : AsmValue)
  | hlt
deriving DecidableEq, Repr

/-- What a program is made of (R73, R74). There are no pseudo-instructions. -/
inductive AsmLine where
  /-- `name:` -/
  | label (name : String)
  /-- `.word v, v, ...` -/
  | word (vs : List Word)
  | instr (i : AsmInstr)
deriving DecidableEq, Repr

/-- The address each label stands for. -/
abbrev LabelTable := List (String × Nat)

/-- The Words an instruction occupies (R60). -/
def AsmInstr.size : AsmInstr → Nat
  | .add _ _ _ => 4
  | .mul _ _ _ => 4
  | .input _ => 2
  | .output _ => 2
  | .jt _ _ => 3
  | .jf _ _ => 3
  | .lt _ _ _ => 4
  | .eq _ _ _ => 4
  | .hlt => 1

/-- The Words a line emits, counted. -/
def AsmLine.size : AsmLine → Nat
  | .label _ => 0
  | .word vs => vs.length
  | .instr i => i.size

/-- A label stands for the address of the next Word emitted, counted from the start of the image (R73): the labels of the
lines that start at address `a`. R73 speaks only of a label before an instruction or a `.word`; a label that no Word
follows, on the last line, stands here for the address after the image's last Word (log entry 10, DESIGN CHOICE, safe). -/
def labelsFrom : Nat → List AsmLine → LabelTable
  | _, [] => []
  | a, .label name :: ls => (name, a) :: labelsFrom a ls
  | a, .word vs :: ls => labelsFrom (a + vs.length) ls
  | a, .instr i :: ls => labelsFrom (a + i.size) ls

/-- The Word a value denotes; none for a label that is not defined. -/
def AsmValue.resolve (env : LabelTable) : AsmValue → Option Word
  | .num v => some v
  | .label name => (env.lookup name).map Int.ofNat

/-- The operand, with its parameter Word resolved. -/
def AsmOperand.resolve (env : LabelTable) : AsmOperand → Option Operand
  | .pos v => (v.resolve env).map (Operand.mk .positional)
  | .imm v => (v.resolve env).map (Operand.mk .immediate)

/-- The instruction, with every label resolved; parameter order as in R72. -/
def AsmInstr.resolve (env : LabelTable) : AsmInstr → Option Instr
  | .add a b dst =>
    (a.resolve env).bind fun x => (b.resolve env).bind fun y => (dst.resolve env).map fun d => .add x y d
  | .mul a b dst =>
    (a.resolve env).bind fun x => (b.resolve env).bind fun y => (dst.resolve env).map fun d => .mul x y d
  | .input dst => (dst.resolve env).map fun d => .input d
  | .output a => (a.resolve env).map fun x => .output x
  | .jt cond target => (cond.resolve env).bind fun c => (target.resolve env).map fun t => .jt c t
  | .jf cond target => (cond.resolve env).bind fun c => (target.resolve env).map fun t => .jf c t
  | .lt a b dst =>
    (a.resolve env).bind fun x => (b.resolve env).bind fun y => (dst.resolve env).map fun d => .lt x y d
  | .eq a b dst =>
    (a.resolve env).bind fun x => (b.resolve env).bind fun y => (dst.resolve env).map fun d => .eq x y d
  | .hlt => some .hlt

/-- The Words a line emits (R73, R74). -/
def AsmLine.words (env : LabelTable) : AsmLine → Option (List Word)
  | .label _ => some []
  | .word vs => some vs
  | .instr i => (i.resolve env).map encode

/-- The Words the lines emit, in order. -/
def emitLines (env : LabelTable) : List AsmLine → Option (List Word)
  | [] => some []
  | l :: ls => (l.words env).bind fun v => (emitLines env ls).map fun w => v ++ w

/-- The image of a program; none if a label is undefined or defined twice, for which the notation gives no meaning (log
entry 10). -/
def assemble (ls : List AsmLine) : Option (List Word) :=
  if ((labelsFrom 0 ls).map Prod.fst).Nodup then emitLines (labelsFrom 0 ls) ls else none

end Sys2Proof.Machine
end

