-- ==== Sys2Proof/Machine/HostOps.lean ====
section
/-! DEFINITION. Machine/HostOps.lean: the host operations (spec/46_run_control_and_host.md R155 to R163), the completion
status of a run (R160) and the numeric codes (spec/60_exceptions.md R175). They are transactions between steps, not
steps (log entry 11). -/

namespace Sys2Proof.Machine

/-- The host operations; there are no others (R163). -/
inductive HostOp where
  /-- R155; `susp` is optional -/
  | load (image : List Word) (susp : Option Bool)
  /-- R156 -/
  | addInput (v : Word)
  /-- R150 -/
  | run
  /-- R157 -/
  | output
  /-- R158 -/
  | peekMem (a : Int)
  /-- R158 -/
  | peekIp
deriving DecidableEq, Repr

/-- The completion status of a run (R160). -/
inductive Status where
  | doneHalt
  | doneSuspend
  | failed (e : FaultRecord)
deriving DecidableEq, Repr

/-- What an operation hands back to the host (R215). -/
inductive Reply where
  /-- performed, no result -/
  | unit
  /-- a run has started; its status comes when it ends -/
  | started
  /-- a run is over -/
  | status (c : Status)
  /-- the whole `OUTQ` -/
  | words (q : List Word)
  /-- a Word of memory -/
  | word (v : Word)
  /-- `IP` -/
  | index (a : Nat)
deriving DecidableEq, Repr

/-- Why an operation is not performed. -/
inductive HostRefusal where
  /-- `BUSY = 1`: the host has no move (R159) -/
  | busy
  /-- a value outside the Word range (R155, R156, D22) -/
  | notAWord
  /-- an image longer than `WMAX - 3` (R155, D18) -/
  | imageTooLong
  /-- `PEEK_MEM` of an address that does not exist (R158) -/
  | outOfBounds
deriving DecidableEq, Repr

/-- The result of asking for a host operation: performed, or refused with no state change. -/
inductive HostResult where
  | performed (s : State) (r : Reply)
  | refused (why : HostRefusal)
deriving DecidableEq, Repr

/-- Construction (R34, R155, R200): every piece of state at the value of R34's table. -/
def construct (x : Xlen) (image : List Word) (susp : Bool) : State where
  xlen := x
  mem := Memory.ofImage 0 image
  n := image.length
  ip := 0
  inq := []
  outq := []
  susp := susp
  halt := false
  busy := false
  err := none
  stop := .none

/-- `LOAD(image, susp)` (R155): refused if a value is no Word or the image is longer than `WMAX - 3` (D22). -/
def hostLoad (s : State) (image : List Word) (susp : Option Bool) : HostResult :=
  if image.all (fun v => s.xlen.holds v) then
    if s.xlen.holds (Int.ofNat (image.length + 3)) then
      .performed (construct s.xlen image (susp.getD Config.defaultSusp)) .unit
    else .refused .imageTooLong
  else .refused .notAWord

/-- `ADD_INPUT(v)` (R156): `INQ <- INQ ++ [v]`. -/
def hostAddInput (s : State) (v : Word) : HostResult :=
  if s.xlen.holds v then .performed (setInq s (s.inq ++ [v])) .unit else .refused .notAWord

/-- The acceptance of `RUN` (R150): on a faulted machine `STOP <- Fault` and the same failure again (R162), else the run
starts. -/
def hostRun (s : State) : HostResult :=
  match s.err with
  | some e => .performed { s with stop := .fault } (.status (.failed e))
  | none => .performed (startRun s) .started

/-- `OUTPUT()` (R157). -/
def hostOutput (s : State) : HostResult := .performed s (.words s.outq)

/-- `PEEK_MEM(a)` (R158). -/
def hostPeekMem (s : State) (a : Int) : HostResult :=
  if inBounds s a then .performed s (.word (s.mem.get a.toNat)) else .refused .outOfBounds

/-- `PEEK_IP()` (R158). -/
def hostPeekIp (s : State) : HostResult := .performed s (.index s.ip)

/-- A host operation on a machine: accepted only when `BUSY = 0` (R159). -/
def hostStep (op : HostOp) (s : State) : HostResult :=
  match s.busy with
  | true => .refused .busy
  | false =>
    match op with
    | .load image susp => hostLoad s image susp
    | .addInput v => hostAddInput s v
    | .run => hostRun s
    | .output => hostOutput s
    | .peekMem a => hostPeekMem s a
    | .peekIp => hostPeekIp s

/-- The status of the last run, as `STOP` and `ERR` show it (R160); none before the first run has ended. -/
def statusOf (s : State) : Option Status :=
  match s.stop, s.err with
  | .halt, _ => some .doneHalt
  | .suspend, _ => some .doneSuspend
  | .fault, some e => some (.failed e)
  | .fault, none => none
  | .none, _ => none

/-- The code of a fault kind (R170, R175). -/
def faultCode : Option FaultRecord → Nat
  | none => 0
  | some (.decode _ _) => 1
  | some (.outOfBounds _ _) => 2
  | some (.starvedInput _) => 3
  | some (.overflow _) => 4

/-- The code of a stop cause (R175). -/
def stopCode : StopCause → Nat
  | .none => 0
  | .halt => 1
  | .suspend => 2
  | .fault => 3

end Sys2Proof.Machine
end

