-- ==== Sys2Proof/Machine/Run.lean ====
section
/-! DEFINITION. Machine/Run.lean: a whole run, as the loop of R150 with a bound on the steps. The bound is the model's
fuel, outside the machine (R185); a run that never ends (R210) has no answer at any bound. -/

namespace Sys2Proof.Machine

/-- At most `fuel` steps, until the machine is idle; none if it still runs. -/
def runLoop : Nat → State → Option State
  | 0, s => if s.busy then none else some s
  | k + 1, s =>
    if s.busy then
      match step s with
      | .next t => runLoop k t
      | .fault _ => none
      | .refused _ => none
    else some s

/-- `RUN` to its completion within `fuel` steps (R150, R160): the idle state after it and its status. -/
def runToEnd (fuel : Nat) (s : State) : Option (State × Status) :=
  match hostStep .run s with
  | .refused _ => none
  | .performed t _ =>
    match runLoop fuel t with
    | none => none
    | some u => (statusOf u).map (fun c => (u, c))

/-- A sequence of host operations, each `RUN` taken to its completion within `fuel` steps (R203): the state after the
last, with the replies in order; none as soon as an operation is refused or a run does not end. -/
def hostScript (fuel : Nat) : List HostOp → State → Option (State × List Reply)
  | [], s => some (s, [])
  | op :: ops, s =>
    match hostStep op s with
    | .refused _ => none
    | .performed t r =>
      match runLoop fuel t with
      | none => none
      | some u =>
        let reply := if t.busy then ((statusOf u).map Reply.status).getD r else r
        (hostScript fuel ops u).map (fun q => (q.1, reply :: q.2))

end Sys2Proof.Machine
end

