-- ==== Sys2Proof/Machine/Fleet.lean ====
section
/-! DEFINITION. Machine/Fleet.lean: several machines under one host (spec/46_run_control_and_host.md R165,
spec/60_exceptions.md R180, R187). Each is a State of its own; nothing is shared, and the host moves every value between
them. Which machine acts is the host's choice: the scheduling itself is the orchestrator's (R5, log entry 9). -/

namespace Sys2Proof.Machine

/-- The machines a host drives, by number. -/
abbrev Fleet := List State

/-- A host operation on machine `k` (R165): none if there is no such machine or the operation is refused. -/
def fleetHost (k : Nat) (op : HostOp) (f : Fleet) : Option (Fleet × Reply) :=
  match f[k]? with
  | none => none
  | some s =>
    match hostStep op s with
    | .refused _ => none
    | .performed t r => some (f.set k t, r)

/-- A step of machine `k`: none if there is no such machine or its step answers no next state. -/
def fleetStep (k : Nat) (f : Fleet) : Option Fleet :=
  match f[k]? with
  | none => none
  | some s =>
    match step s with
    | .next t => some (f.set k t)
    | .fault _ => none
    | .refused _ => none

/-- `RUN` of machine `k` to its completion within `fuel` steps: its status. -/
def fleetRun (fuel k : Nat) (f : Fleet) : Option (Fleet × Status) :=
  match f[k]? with
  | none => none
  | some s => (runToEnd fuel s).map (fun q => (f.set k q.1, q.2))

end Sys2Proof.Machine
end

