-- ==== Sys2Proof/WellFormed.lean ====
section
/-! DEFINITION. WellFormed.lean: an instruction of a machine of width `XLEN` is well-formed when every parameter is a
Word (spec/30_encoding.md R60, R65; spec/00_scope.md R9). That a destination is positional (R69) is built into
`Instr`. -/

namespace Sys2Proof

/-- Is this operand's parameter Word a Word of the machine? -/
def Operand.wf (x : Xlen) (o : Operand) : Bool := x.holds o.word

/-- Every parameter of the instruction is a Word of the machine. -/
def Instr.wf (x : Xlen) : Instr → Bool
  | .add a b dst => a.wf x && b.wf x && x.holds dst
  | .mul a b dst => a.wf x && b.wf x && x.holds dst
  | .input dst => x.holds dst
  | .output a => a.wf x
  | .jt cond target => cond.wf x && target.wf x
  | .jf cond target => cond.wf x && target.wf x
  | .lt a b dst => a.wf x && b.wf x && x.holds dst
  | .eq a b dst => a.wf x && b.wf x && x.holds dst
  | .hlt => true

end Sys2Proof
end

