-- ==== Sys2Proof/Safety.lean ====
section
/-! DEFINITION. Safety.lean: the invariant of the machine between steps, and the words claims use for operands and
unchanged memory. -/

namespace Sys2Proof.Machine

/-- Every Word of memory and of the queues is a Word of the machine (R9, R22, R25, R26). -/
abbrev WordsOk (s : State) : Prop :=
  (∀ c ∈ s.mem, s.xlen.holds c.2 = true) ∧ (∀ v ∈ s.inq, s.xlen.holds v = true) ∧
    ∀ v ∈ s.outq, s.xlen.holds v = true

/-- `IP` is a non-negative Word (R24), and `N <= WMAX - 3` (R23). -/
abbrev SizesOk (s : State) : Prop :=
  s.xlen.holds (Int.ofNat s.ip) = true ∧ s.xlen.holds (Int.ofNat s.n + 3) = true

/-- The pointer a fault record names. -/
def FaultRecord.ip : FaultRecord → Nat
  | .decode p _ => p
  | .outOfBounds _ p => p
  | .starvedInput p => p
  | .overflow p => p

/-- The address or instruction Word a fault record names is a Word of the machine (D19). -/
def FaultRecord.wf (x : Xlen) : FaultRecord → Bool
  | .decode _ w => x.holds w
  | .outOfBounds a _ => x.holds a
  | .starvedInput _ => true
  | .overflow _ => true

/-- `ERR`, `STOP`, `BUSY` and `IP` agree: a faulted machine is idle, stopped by `Fault`, and its pointer is still at the
faulting instruction (R177, R179); a machine that has not faulted is not stopped by `Fault` (R31). -/
abbrev ErrOk (s : State) : Prop :=
  (∀ e ∈ s.err, s.busy = false ∧ s.stop = .fault ∧ e.ip = s.ip ∧ e.wf s.xlen = true) ∧
    (s.err = none → s.stop ≠ .fault)

/-- `HALT = 0` between steps (R28), and a suspension needs `SUSP = 1` (R31). -/
abbrev FlagsOk (s : State) : Prop := s.halt = false ∧ (s.stop = .suspend → s.susp = true)

/-- The invariant between steps: memory in its canonical form, every datum a Word, sizes in range, control state
consistent. -/
abbrev State.Inv (s : State) : Prop :=
  s.mem.wf s.n = true ∧ WordsOk s ∧ SizesOk s ∧ ErrOk s ∧ FlagsOk s

/-- The operand can be read: an immediate always, a positional one when the cell it names exists (R83). -/
def Readable (s : State) (o : Operand) : Prop :=
  o.mode = .positional → 0 ≤ o.word ∧ o.word < (s.n : Int)

/-- The value of a readable operand (R81, R82). -/
def valueIn (s : State) (o : Operand) : Word :=
  match o.mode with
  | .immediate => o.word
  | .positional => s.mem.get o.word.toNat

/-- The address names a cell (R9). -/
def HasCell (s : State) (a : Int) : Prop := 0 ≤ a ∧ a < (s.n : Int)

/-- Everything but `MEM` and `IP` is unchanged. -/
def SameButMemIp (s t : State) : Prop :=
  t.xlen = s.xlen ∧ t.n = s.n ∧ t.inq = s.inq ∧ t.outq = s.outq ∧ t.susp = s.susp ∧ t.halt = s.halt ∧
    t.busy = s.busy ∧ t.err = s.err ∧ t.stop = s.stop

/-- Every cell but `d` reads as before. -/
def SameMemoryBut (d : Nat) (s t : State) : Prop := ∀ a, a ≠ d → t.mem.get a = s.mem.get a

/-- `s` with the fault `e` taken (R90, R177): `ERR <- e`, `STOP <- Fault`, `BUSY <- 0`, nothing else. -/
def withFault (e : FaultRecord) (s : State) : State := { s with err := some e, stop := .fault, busy := false }

/-- A step is taken (R86): `BUSY = 1`, `HALT = 0` and `ERR = None`. -/
def InRun (s : State) : Prop := s.busy = true ∧ s.halt = false ∧ s.err = none

/-- A Word was stored and the pointer advanced: cell `d` holds `r`, memory keeps its canonical form, every other cell
reads as before, `IP` has moved by `k`, and nothing else has changed. That cell `d` reads as `r` needs memory to be in
its canonical form before. -/
def StoredAndAdvanced (d : Nat) (r : Word) (k : Nat) (s t : State) : Prop :=
  (s.mem.wf s.n = true → t.mem.get d = r ∧ t.mem.wf t.n = true) ∧ SameMemoryBut d s t ∧ t.ip = s.ip + k ∧
    SameButMemIp s t

/-- The destination parameter of an instruction that writes memory (R41). -/
def destination : Instr → Option Word
  | .add _ _ dst => some dst
  | .mul _ _ dst => some dst
  | .input dst => some dst
  | .output _ => none
  | .jt _ _ => none
  | .jf _ _ => none
  | .lt _ _ dst => some dst
  | .eq _ _ dst => some dst
  | .hlt => none

/-- The read operands of an instruction that writes memory, none for one that does not (R64). -/
def sourceOperands : Instr → List Operand
  | .add a b _ => [a, b]
  | .mul a b _ => [a, b]
  | .input _ => []
  | .output _ => []
  | .jt _ _ => []
  | .jf _ _ => []
  | .lt a b _ => [a, b]
  | .eq a b _ => [a, b]
  | .hlt => []

/-- The exact result an instruction stores (R100, R101, R110, R130, R131); none for one that stores nothing, and for `IN`
with `INQ` empty. -/
def storedResult (s : State) : Instr → Option Int
  | .add a b _ => some (valueIn s a + valueIn s b)
  | .mul a b _ => some (valueIn s a * valueIn s b)
  | .input _ => s.inq.head?
  | .output _ => none
  | .jt _ _ => none
  | .jf _ _ => none
  | .lt a b _ => some (if valueIn s a < valueIn s b then 1 else 0)
  | .eq a b _ => some (if valueIn s a = valueIn s b then 1 else 0)
  | .hlt => none

/-- How far an instruction that does not jump advances `IP` (R24, R67, R141). -/
def ipAdvance : Instr → Nat
  | .add _ _ _ => 4
  | .mul _ _ _ => 4
  | .input _ => 2
  | .output _ => 2
  | .jt _ _ => 3
  | .jf _ _ => 3
  | .lt _ _ _ => 4
  | .eq _ _ _ => 4
  | .hlt => 0

/-- The target of a jump instruction (R120, R121). -/
def jumpTarget : Instr → Option Operand
  | .add _ _ _ => none
  | .mul _ _ _ => none
  | .input _ => none
  | .output _ => none
  | .jt _ target => some target
  | .jf _ target => some target
  | .lt _ _ _ => none
  | .eq _ _ _ => none
  | .hlt => none

/-- The opcode map's first column and format column (R64, R67): the format an opcode selects, none for every other
value of `w tmod 100`. -/
def formatOf (op : Int) : Option Format :=
  if op = 1 ∨ op = 2 ∨ op = 7 ∨ op = 8 then some .rrw
  else if op = 3 then some .w
  else if op = 4 then some .r
  else if op = 5 ∨ op = 6 then some .rr
  else if op = 99 then some .z
  else none

/-- The mode digit of the parameter after `k` others: decimal digit `k + 2` of the instruction Word (R62). -/
def modeDigit (w : Word) (k : Nat) : Int := Int.tmod (Int.tdiv w (10 ^ (k + 2))) 10

/-- A mode digit legal for a role (R69): 0 or 1 to read through, 0 to write through. -/
def legalDigit : Role → Int → Prop
  | .read, m => m = 0 ∨ m = 1
  | .write, m => m = 0

end Sys2Proof.Machine
end

