-- ==== Sys2Proof/Certificates/Slice0/Obligations.lean ====
section
/-! DEFINITION. Certificates/Slice0/Obligations.lean: the statements for the provers. Each names the rule of the spec it
formalises; where a rule is a decision of the spec's own (D<n> of spec/92_eei_decisions.md) or the model's choice (a log
entry), the docstring says so. -/

open Sys2Proof Sys2Proof.Machine

/-! ### Reset and the host -/

/-- R34, R155 with D5, D18, D20, D22 (the spec's own decisions): on an idle machine `LOAD` of an image of Words no
longer than `WMAX - 3` leaves exactly R34's table; `susp` is 0 when omitted; `XLEN` stays (log entry 1). -/
def Obligations.LoadLeavesTheResetTable : Prop :=
  ∀ (s : State) (image : List Word) (susp : Option Bool), s.busy = false →
    (∀ v ∈ image, s.xlen.holds v = true) → s.xlen.holds (Int.ofNat image.length + 3) = true →
    ∃ t, hostStep (.load image susp) s = .performed t .unit ∧
      t.n = image.length ∧ (∀ i v, image[i]? = some v → t.mem.get i = v) ∧ t.mem.wf t.n = true ∧ t.ip = 0 ∧
      t.inq = [] ∧ t.outq = [] ∧ t.susp = susp.getD false ∧ t.halt = false ∧ t.busy = false ∧ t.err = none ∧
      t.stop = .none ∧ t.xlen = s.xlen

/-- R155, R156 with D18, D22 (the spec's own decisions): `LOAD` with a value that is no Word or an image longer than
`WMAX - 3`, and `ADD_INPUT` of a value that is no Word, are refused. -/
def Obligations.HostValuesOutsideWordRangeRefused : Prop :=
  ∀ (s : State), s.busy = false →
    (∀ image susp, (∃ v ∈ image, s.xlen.holds v = false) →
      hostStep (.load image susp) s = .refused .notAWord) ∧
    (∀ image susp, (∀ v ∈ image, s.xlen.holds v = true) → s.xlen.holds (Int.ofNat image.length + 3) = false →
      hostStep (.load image susp) s = .refused .imageTooLong) ∧
    (∀ v, s.xlen.holds v = false → hostStep (.addInput v) s = .refused .notAWord)

/-- The reset state meets the invariant, whatever `XLEN` is. -/
def Obligations.ResetMeetsInvariant : Prop := State.reset.Inv

/-- R156 with D16 (the spec's own decision): on an idle machine `ADD_INPUT` of a Word appends it to the tail of `INQ` and
changes nothing else, after a fault or a halt too. -/
def Obligations.AddInputAppends : Prop :=
  ∀ (s : State) (v : Word), s.busy = false → s.xlen.holds v = true →
    hostStep (.addInput v) s = .performed { s with inq := s.inq ++ [v] } .unit

/-- R157: on an idle machine `OUTPUT` returns the whole of `OUTQ` and changes no state; asked again it returns the same;
and after a run that is over it returns the same accumulated sequence and the values appended since. -/
def Obligations.OutputReadIsIdempotent : Prop :=
  ∀ (s : State), s.busy = false →
    ∃ t q, hostStep .output s = .performed t (.words q) ∧ q = s.outq ∧ t = s ∧
      hostStep .output t = .performed t (.words q) ∧
      (∀ fuel u c, runToEnd fuel t = some (u, c) → ∃ more, hostStep .output u = .performed u (.words (q ++ more)))

/-- R158 with D13 (the spec's own decision): inspection of an idle machine, which changes no state. -/
def Obligations.InspectionOfIdleMachine : Prop :=
  ∀ (s : State), s.busy = false →
    hostStep .peekIp s = .performed s (.index s.ip) ∧
    (∀ a : Nat, a < s.n → hostStep (.peekMem a) s = .performed s (.word (s.mem.get a))) ∧
    (∀ a : Int, a < 0 ∨ (s.n : Int) ≤ a → hostStep (.peekMem a) s = .refused .outOfBounds)

/-- R159 with D16 (the spec's own decision): while `BUSY = 1` the host has no move. -/
def Obligations.HostHasNoMoveDuringRun : Prop :=
  ∀ (s : State) (op : HostOp), s.busy = true → hostStep op s = .refused .busy

/-- R150, R162 with D11 (the spec's own decision): `RUN` on an idle machine that has not faulted sets `BUSY` and nothing
else; on a faulted one it executes nothing, sets `STOP` to `Fault` and nothing else, and reports the same fault. -/
def Obligations.RunStartsOrReportsFault : Prop :=
  ∀ (s : State), s.busy = false →
    (s.err = none → hostStep .run s = .performed { s with busy := true } .started) ∧
    (∀ e, s.err = some e → hostStep .run s = .performed { s with stop := .fault } (.status (.failed e)))

/-- R163 (with R155, R156, R158): no host operation but `LOAD` writes `MEM`, `N`, `IP`, `OUTQ`, `SUSP`, `HALT` or `ERR`, and
what it may do to `INQ` is to append at the tail. -/
def Obligations.OnlyLoadWritesTheMachine : Prop :=
  ∀ (s t : State) (op : HostOp) (r : Reply), (∀ image susp, op ≠ .load image susp) →
    hostStep op s = .performed t r →
    t.mem = s.mem ∧ t.n = s.n ∧ t.ip = s.ip ∧ t.outq = s.outq ∧ t.susp = s.susp ∧ t.halt = s.halt ∧ t.err = s.err ∧
      t.xlen = s.xlen ∧ ∃ pushed, t.inq = s.inq ++ pushed

/-- Every host operation that is performed keeps the invariant (R155 to R163). -/
def Obligations.HostOpsKeepInvariant : Prop :=
  ∀ (s t : State) (op : HostOp) (r : Reply), s.Inv → hostStep op s = .performed t r → t.Inv

/-! ### The step -/

/-- R86, R150, R152: when the Words at `IP` decode to an instruction, `step` is `exec` of it and then the loop's test of
`HALT`. That the test is part of the same step is log entry 5. -/
def Obligations.StepRunsDecoded : Prop :=
  ∀ (s : State) (i : Instr) (rest : List Word), InRun s → decode (fetchWords s) = .instr i rest →
    step s = match exec i s with
      | .next t => .next (loopTest i t)
      | .fault f => .fault f
      | .refused r => .refused r

/-- R152: what the end of a run does: `STOP` gets the cause, `HALT` and `BUSY` are cleared, nothing else is touched; and
while `HALT = 0` the run goes on. Log entry 5. -/
def Obligations.EndOfRunThroughFlag : Prop :=
  ∀ (t : State),
    (∀ i, t.halt = false → loopTest i t = t) ∧
    (t.halt = true → loopTest .hlt t = { t with stop := .halt, halt := false, busy := false }) ∧
    (∀ a, t.halt = true → loopTest (.output a) t = { t with stop := .suspend, halt := false, busy := false })

/-- R189: an idle machine waits and keeps all its state (log entry 4). R86, R150, R152: at `BUSY = 1` with `HALT = 1` or
`ERR != None` no step is taken and the run ends, with `STOP = Fault` if `ERR` holds a record, else `Halt` or, only under
`SUSP = 1`, `Suspend`; it is `Suspend` if no `HLT` stands at `IP`. Which of the two it is otherwise is read from `HALT`'s
setters, and free where they do not tell (log entry 6). -/
def Obligations.IdleMachineWaits : Prop :=
  ∀ (s : State), (s.busy = false → step s = .next s) ∧
    (s.busy = true → ¬ InRun s →
      ∃ c, step s = .next { s with stop := c, halt := false, busy := false } ∧
        (s.err ≠ none → c = .fault) ∧
        (s.err = none → c = .halt ∨ (c = .suspend ∧ s.susp = true)) ∧
        (s.err = none → s.susp = true → (∀ rest, decode (fetchWords s) ≠ .instr .hlt rest) → c = .suspend))

/-- R41, R53: the fetch reads the cells from `IP` on as they are in `MEM` now, those that exist. -/
def Obligations.FetchReadsCurrentMemory : Prop :=
  ∀ (s : State) (k : Nat), k < 4 →
    (fetchWords s)[k]? = if s.ip + k < s.n then some (s.mem.get (s.ip + k)) else none

/-- R87: a fetch at or past the end of memory is `OutOfBounds(ip0, ip0)`; otherwise the Word fetched is `MEM[ip0]`. -/
def Obligations.FetchIsBoundsChecked : Prop :=
  ∀ (s : State), InRun s →
    (s.n ≤ s.ip → step s = .next (withFault (.outOfBounds s.ip s.ip) s)) ∧
    (s.ip < s.n → (fetchWords s).head? = some (s.mem.get s.ip))

/-- R68 (and R66, whose reading of negative Words is D3, the spec's own decision): a Word that is no opcode, as every
negative Word is, is `Decode(ip0, w)`, whatever follows it. -/
def Obligations.UnknownOpcodeFaults : Prop :=
  ∀ (s : State) (w : Word), InRun s → s.ip < s.n → s.mem.get s.ip = w →
    formatOf (Int.tmod w 100) = none ∨ w < 0 → step s = .next (withFault (.decode s.ip w) s)

/-- R171, R172 (rows 1 and 2), R177, with D19 (the spec's own decision): every rejection of the decode phase is taken as
its fault, with the record the table gives. -/
def Obligations.DecodeFaultsAreTaken : Prop :=
  ∀ (s : State) (r : Reject), InRun s → decode (fetchWords s) = .reject r →
    step s = .next (withFault (match r with
      | .missing k => .outOfBounds ((s.ip : Int) + k) s.ip
      | .unknownOpcode => .decode s.ip (s.mem.get s.ip)
      | .badMode _ => .decode s.ip (s.mem.get s.ip)
      | .immediateDest _ => .decode s.ip (s.mem.get s.ip)) s)

/-! ### Decoding -/

/-- R88 with D10 (the spec's own decision on the order): the first parameter that cannot be resolved decides the
rejection: its cell first, then its mode digit, then mode 1 on a destination. -/
def Obligations.DecodeRejectsFirstBadParameter : Prop :=
  ∀ (w : Word) (ps : List Word) (f : Format) (k : Nat) (role : Role),
    formatOf (Int.tmod w 100) = some f → f.roles[k]? = some role →
    (∀ j r, j < k → f.roles[j]? = some r → (∃ p, ps[j]? = some p) ∧ legalDigit r (modeDigit w j)) →
    (ps[k]? = none → decode (w :: ps) = .reject (.missing (k + 1))) ∧
    (∀ p, ps[k]? = some p → modeDigit w k ≠ 0 → modeDigit w k ≠ 1 →
      decode (w :: ps) = .reject (.badMode (k + 1))) ∧
    (∀ p, ps[k]? = some p → role = .write → modeDigit w k = 1 →
      decode (w :: ps) = .reject (.immediateDest (k + 1)))

/-- R60, R62, R64, R65, R67, R88: a Word with an opcode of the map whose parameters are all there with legal mode digits
decodes to the instruction of that opcode with exactly those parameters and modes. -/
def Obligations.DecodeAcceptsLegalWords : Prop :=
  ∀ (w : Word) (ps : List Word) (f : Format), formatOf (Int.tmod w 100) = some f →
    (∀ j r, f.roles[j]? = some r → (∃ p, ps[j]? = some p) ∧ legalDigit r (modeDigit w j)) →
    ∃ i, decode (w :: ps) = .instr i (ps.drop f.roles.length) ∧ (i.opcode : Int) = Int.tmod w 100 ∧ i.format = f ∧
      i.params = ps.take f.roles.length ∧ ∀ j m, i.modes[j]? = some m → m.digit = modeDigit w j

/-- The converse: what decodes is a nonnegative Word whose opcode, mode digits and parameter Words are the
instruction's (R60, R62, R66, R67). -/
def Obligations.DecodedInstructionMatchesWord : Prop :=
  ∀ (w : Word) (ps rest : List Word) (i : Instr), decode (w :: ps) = .instr i rest →
    0 ≤ w ∧ Int.tmod w 100 = i.opcode ∧ ps = i.params ++ rest ∧
      ∀ j m, i.modes[j]? = some m → modeDigit w j = m.digit

/-- Decoding the canonical encoding of any instruction gives it back, with every operand at every value, and the Words
after it (R63, R71). -/
def Obligations.DecodeEncodeRoundTrip : Prop :=
  ∀ (i : Instr) (rest : List Word), decode (encode i ++ rest) = .instr i rest

/-- R70 with D4 (the spec's own decision): decimal digits of weight `10^5` and above, and the mode digits of absent
parameters, change nothing. -/
def Obligations.UndecodedDigitsAreIgnored : Prop :=
  ∀ (w : Word) (ps : List Word) (k : Nat), 0 ≤ w →
    decode ((w + 100000 * k) :: ps) = decode (w :: ps) ∧
    (∀ i rest, decode (w :: ps) = .instr i rest → ∀ v : Word, 0 ≤ v → Int.tmod v 100 = Int.tmod w 100 →
      (∀ j, j < i.modes.length → modeDigit v j = modeDigit w j) → decode (v :: ps) = .instr i rest)

/-- R67, R71 and vectors S1, DE4 to DE6: words written out from the encoding, one per instruction, and three with digits
that are not decoded. -/
def Obligations.WordsOfTheSpecDecode : Prop :=
  decode [1101, 5, -6, 7] = .instr (.add ⟨.immediate, 5⟩ ⟨.immediate, -6⟩ 7) [] ∧
  decode [1002, 4, 3, 4] = .instr (.mul ⟨.positional, 4⟩ ⟨.immediate, 3⟩ 4) [] ∧
  decode [3, 9] = .instr (.input 9) [] ∧
  decode [104, 7] = .instr (.output ⟨.immediate, 7⟩) [] ∧
  decode [1005, 28, 6] = .instr (.jt ⟨.positional, 28⟩ ⟨.immediate, 6⟩) [] ∧
  decode [106, 0, 4] = .instr (.jf ⟨.immediate, 0⟩ ⟨.positional, 4⟩) [] ∧
  decode [107, 3, 5, 7] = .instr (.lt ⟨.immediate, 3⟩ ⟨.positional, 5⟩ 7) [] ∧
  decode [8, 9, 10, 9] = .instr (.eq ⟨.positional, 9⟩ ⟨.positional, 10⟩ 9) [] ∧
  decode [99] = .instr .hlt [] ∧
  decode [11105, 1, 3] = .instr (.jt ⟨.immediate, 1⟩ ⟨.immediate, 3⟩) [] ∧
  decode [20099] = .instr .hlt [] ∧
  decode [100001, 0, 0, 0] = .instr (.add ⟨.positional, 0⟩ ⟨.positional, 0⟩ 0) []

/-! ### Operands -/

/-- R83, R84: `read(i)` and `waddr(i)`, with the fault each raises. -/
def Obligations.OperandResolver : Prop :=
  ∀ (s : State) (p : Word),
    readOperand s ⟨.immediate, p⟩ = .ok p ∧
    (0 ≤ p ∧ p < (s.n : Int) →
      readOperand s ⟨.positional, p⟩ = .ok (s.mem.get p.toNat) ∧ writeAddr s p = .ok p.toNat) ∧
    (¬ (0 ≤ p ∧ p < (s.n : Int)) →
      readOperand s ⟨.positional, p⟩ = .error (.outOfBounds p s.ip) ∧ writeAddr s p = .error (.outOfBounds p s.ip))

/-! ### Arithmetic -/

/-- R100, R102: `ADD` of two readable operands into a cell that exists, the exact sum being a Word, stores the sum and
advances by 4; nothing else changes. -/
def Obligations.AddStoresSum : Prop :=
  ∀ (s : State) (a b : Operand) (dst : Word), Readable s a → Readable s b → HasCell s dst →
    s.xlen.holds (valueIn s a + valueIn s b) = true →
    ∃ t, exec (.add a b dst) s = .next t ∧ StoredAndAdvanced dst.toNat (valueIn s a + valueIn s b) 4 s t

/-- R101, R102: `MUL`, as `ADD` with the exact signed product. -/
def Obligations.MulStoresProduct : Prop :=
  ∀ (s : State) (a b : Operand) (dst : Word), Readable s a → Readable s b → HasCell s dst →
    s.xlen.holds (valueIn s a * valueIn s b) = true →
    ∃ t, exec (.mul a b dst) s = .next t ∧ StoredAndAdvanced dst.toNat (valueIn s a * valueIn s b) 4 s t

/-- R103, R174 with D1, D2 (the spec's own decisions): an exact result outside the Word range faults with
`Overflow(ip0)`, nothing written; with `XLEN = inf` the case cannot arise; a finite range is `WMIN .. WMAX`. -/
def Obligations.ArithmeticOverflowFaults : Prop :=
  (∀ (s : State) (a b : Operand) (dst : Word), Readable s a → Readable s b → HasCell s dst →
    (s.xlen.holds (valueIn s a + valueIn s b) = false →
      exec (.add a b dst) s = .next (withFault (.overflow s.ip) s)) ∧
    (s.xlen.holds (valueIn s a * valueIn s b) = false →
      exec (.mul a b dst) s = .next (withFault (.overflow s.ip) s))) ∧
  (∀ r : Int, Xlen.inf.holds r = true) ∧
  (∀ (k : Nat) (r : Int), (Xlen.finite k).holds r = true ↔ -(2 : Int) ^ (31 + k) ≤ r ∧ r ≤ 2 ^ (31 + k) - 1)

/-- R102: whenever the exact sum (the exact signed product) is a Word it is the result of `ADD` (of `MUL`), whichever of
the two read operands comes first: the two orders leave the very same state, and no flag or other state takes part. -/
def Obligations.ArithmeticIsExactAndCommutative : Prop :=
  ∀ (s : State) (a b : Operand) (dst : Word), s.mem.wf s.n = true → Readable s a → Readable s b → HasCell s dst →
    (s.xlen.holds (valueIn s a + valueIn s b) = true →
      ∃ t, exec (.add a b dst) s = .next t ∧ exec (.add b a dst) s = .next t ∧
        t.mem.get dst.toNat = valueIn s a + valueIn s b ∧ SameMemoryBut dst.toNat s t ∧ t.ip = s.ip + 4 ∧
        SameButMemIp s t) ∧
    (s.xlen.holds (valueIn s a * valueIn s b) = true →
      ∃ t, exec (.mul a b dst) s = .next t ∧ exec (.mul b a dst) s = .next t ∧
        t.mem.get dst.toNat = valueIn s a * valueIn s b ∧ SameMemoryBut dst.toNat s t ∧ t.ip = s.ip + 4 ∧
        SameButMemIp s t)

/-! ### Comparison -/

/-- R130: `LT` stores 1 if `a < b` as signed integers, else 0, and advances by 4; it cannot overflow. -/
def Obligations.LtStoresTruth : Prop :=
  ∀ (s : State) (a b : Operand) (dst : Word), Readable s a → Readable s b → HasCell s dst →
    ∃ t, exec (.lt a b dst) s = .next t ∧
      StoredAndAdvanced dst.toNat (if valueIn s a < valueIn s b then 1 else 0) 4 s t

/-- R131: `EQ` stores 1 if the whole Words are equal, else 0, and advances by 4. -/
def Obligations.EqStoresTruth : Prop :=
  ∀ (s : State) (a b : Operand) (dst : Word), Readable s a → Readable s b → HasCell s dst →
    ∃ t, exec (.eq a b dst) s = .next t ∧
      StoredAndAdvanced dst.toNat (if valueIn s a = valueIn s b then 1 else 0) 4 s t

/-- R132: of `LT x,y`, `EQ x,y` and `LT y,x` exactly one stores 1 and the others store 0; `LT x,x` stores 0; `EQ x,y` and
`EQ y,x` store the same; and the 0 or 1 stored feeds `JT`, `JF`, `ADD` and `MUL` as any Word of that cell would. -/
def Obligations.ComparisonLaws : Prop :=
  ∀ (s : State) (x y : Operand) (dst : Word), s.mem.wf s.n = true → Readable s x → Readable s y → HasCell s dst →
    ∃ lxy exy lyx eyx lxx, exec (.lt x y dst) s = .next lxy ∧ exec (.eq x y dst) s = .next exy ∧
      exec (.lt y x dst) s = .next lyx ∧ exec (.eq y x dst) s = .next eyx ∧ exec (.lt x x dst) s = .next lxx ∧
      (let c := fun t : State => t.mem.get dst.toNat
       (c lxy = 1 ∧ c exy = 0 ∧ c lyx = 0 ∨ c lxy = 0 ∧ c exy = 1 ∧ c lyx = 0 ∨
          c lxy = 0 ∧ c exy = 0 ∧ c lyx = 1) ∧
       c lxx = 0 ∧ c exy = c eyx) ∧
      ∀ t ∈ [lxy, exy, lyx, eyx, lxx],
        let c := t.mem.get dst.toNat
        (∀ target, Readable t target → 0 ≤ valueIn t target →
          exec (.jt ⟨.positional, dst⟩ target) t =
            .next { t with ip := if c = 1 then (valueIn t target).toNat else t.ip + 3 } ∧
          exec (.jf ⟨.positional, dst⟩ target) t =
            .next { t with ip := if c = 0 then (valueIn t target).toNat else t.ip + 3 }) ∧
        ∀ b d, Readable t b → HasCell t d →
          (t.xlen.holds (c + valueIn t b) = true → ∃ u, exec (.add ⟨.positional, dst⟩ b d) t = .next u ∧
            StoredAndAdvanced d.toNat (c + valueIn t b) 4 t u) ∧
          (t.xlen.holds (c * valueIn t b) = true → ∃ u, exec (.mul ⟨.positional, dst⟩ b d) t = .next u ∧
            StoredAndAdvanced d.toNat (c * valueIn t b) 4 t u)

/-! ### Operand faults of the three-parameter instructions -/

/-- R89, R172 (rows 3 and 4), R176 (steps 4 and 5) with D10 (the spec's own decision on the order): `ADD`, `MUL`, `LT` and
`EQ` fault on `a`, then on `b`, then on `dst`, the first that names no cell, before any overflow. -/
def Obligations.BinaryOperandFaultsInOrder : Prop :=
  ∀ (s : State) (a b : Operand) (dst : Word) (i : Instr),
    i ∈ [Instr.add a b dst, Instr.mul a b dst, Instr.lt a b dst, Instr.eq a b dst] →
    (¬ Readable s a → exec i s = .next (withFault (.outOfBounds a.word s.ip) s)) ∧
    (Readable s a → ¬ Readable s b → exec i s = .next (withFault (.outOfBounds b.word s.ip) s)) ∧
    (Readable s a → Readable s b → ¬ HasCell s dst → exec i s = .next (withFault (.outOfBounds dst s.ip) s))

/-! ### Input and output -/

/-- R110: `IN` takes the oldest value of `INQ` into the destination cell and advances by 2; `HALT` and everything else
stay. -/
def Obligations.InStoresHeadOfQueue : Prop :=
  ∀ (s : State) (dst v : Word) (q : List Word), s.inq = v :: q → HasCell s dst →
    ∃ t, exec (.input dst) s = .next t ∧ t.inq = q ∧ (s.mem.wf s.n = true → t.mem.get dst.toNat = v) ∧
      SameMemoryBut dst.toNat s t ∧ t.ip = s.ip + 2 ∧ SameButMemIp { s with inq := q } t

/-- R110, R173, R176 with D10, D21 (the spec's own decisions on the order and on the queue): `IN` faults on its
destination first, then on an empty queue; no fault advances, stores or removes anything. -/
def Obligations.InFaultsWithoutPopping : Prop :=
  ∀ (s : State) (dst : Word),
    (¬ HasCell s dst → exec (.input dst) s = .next (withFault (.outOfBounds dst s.ip) s)) ∧
    (HasCell s dst → s.inq = [] → exec (.input dst) s = .next (withFault (.starvedInput s.ip) s))

/-- R111: `OUT` of a readable operand appends its value to `OUTQ`, advances by 2, sets `HALT` if and only if `SUSP = 1`,
and changes nothing else; of an unreadable one it faults. -/
def Obligations.OutAppendsValue : Prop :=
  ∀ (s : State) (a : Operand),
    (Readable s a → exec (.output a) s =
      .next { s with outq := s.outq ++ [valueIn s a], ip := s.ip + 2, halt := s.halt || s.susp }) ∧
    (¬ Readable s a → exec (.output a) s = .next (withFault (.outOfBounds a.word s.ip) s))

/-- R113: under `SUSP = 1` an `OUT` commits completely and sets `HALT`, and the run ends with `STOP = Suspend` and
`HALT = 0`, exactly one output more, `IP` at the next instruction and memory as it was, where a later `RUN` continues;
under `SUSP = 0` `OUT` does not touch `HALT` and the run goes on; no other instruction looks at `SUSP`. That the
`OUT`'s own `step` also ends the run is the model's (log entry 5). -/
def Obligations.SuspendOnOutput : Prop :=
  (∀ (s : State) (a : Operand) (rest : List Word), InRun s → decode (fetchWords s) = .instr (.output a) rest →
    Readable s a →
    (s.susp = true →
      exec (.output a) s = .next { s with outq := s.outq ++ [valueIn s a], ip := s.ip + 2, halt := true } ∧
      ∃ t, step s = .next t ∧
        t = { s with outq := s.outq ++ [valueIn s a], ip := s.ip + 2, stop := .suspend, halt := false, busy := false } ∧
        hostStep .run t = .performed { t with busy := true } .started) ∧
    (s.susp = false →
      exec (.output a) s = .next { s with outq := s.outq ++ [valueIn s a], ip := s.ip + 2 } ∧
      step s = .next { s with outq := s.outq ++ [valueIn s a], ip := s.ip + 2 })) ∧
  (∀ (s t : State) (i : Instr) (c : Bool), (∀ a, i ≠ .output a) → exec i s = .next t →
    exec i { s with susp := c } = .next { t with susp := c })

/-! ### Control flow -/

/-- R120, with D8, D9 (the spec's own decisions: the target of a jump not taken is not evaluated, and a target at or past
`N` is accepted): `JT` jumps to the value of `target` when `cond` is not 0, negative values included, and falls
through by 3, whatever `target` is, when it is 0; only `IP` changes. -/
def Obligations.JtJumpsWhenNonzero : Prop :=
  ∀ (s : State) (cond target : Operand), Readable s cond →
    (valueIn s cond ≠ 0 → Readable s target → 0 ≤ valueIn s target →
      exec (.jt cond target) s = .next { s with ip := (valueIn s target).toNat }) ∧
    (valueIn s cond = 0 → exec (.jt cond target) s = .next { s with ip := s.ip + 3 })

/-- R121, with D8, D9 as for `JT`: `JF` jumps when `cond` is 0. -/
def Obligations.JfJumpsWhenZero : Prop :=
  ∀ (s : State) (cond target : Operand), Readable s cond →
    (valueIn s cond = 0 → Readable s target → 0 ≤ valueIn s target →
      exec (.jf cond target) s = .next { s with ip := (valueIn s target).toNat }) ∧
    (valueIn s cond ≠ 0 → exec (.jf cond target) s = .next { s with ip := s.ip + 3 })

/-- R120, R121, R172 (rows 3 and 5), R176, with D8, D9, D10 (the spec's own decisions): where a jump faults: on `cond`;
when taken on `target`; and when taken on a negative target value, with `IP` still at the jump. -/
def Obligations.JumpFaultsInOrder : Prop :=
  ∀ (s : State) (cond target : Operand) (i : Instr) (taken : Word → Prop),
    (i = .jt cond target ∧ taken = (fun c => c ≠ 0)) ∨ (i = .jf cond target ∧ taken = (fun c => c = 0)) →
    (¬ Readable s cond → exec i s = .next (withFault (.outOfBounds cond.word s.ip) s)) ∧
    (Readable s cond → taken (valueIn s cond) → ¬ Readable s target →
      exec i s = .next (withFault (.outOfBounds target.word s.ip) s)) ∧
    (Readable s cond → taken (valueIn s cond) → Readable s target → valueIn s target < 0 →
      exec i s = .next (withFault (.outOfBounds (valueIn s target) s.ip) s))

/-- D9 (the spec's own decision, rule R123): a taken jump to a target at or past `N` completes, and the very next step
faults at its fetch, naming the target as address and pointer. -/
def Obligations.JumpPastEndFaultsAtNextFetch : Prop :=
  ∀ (s : State) (cond target : Operand) (rest : List Word), InRun s →
    (decode (fetchWords s) = .instr (.jt cond target) rest ∧ valueIn s cond ≠ 0 ∨
      decode (fetchWords s) = .instr (.jf cond target) rest ∧ valueIn s cond = 0) →
    Readable s cond → Readable s target → (s.n : Int) ≤ valueIn s target →
    ∃ t, step s = .next t ∧ t = { s with ip := (valueIn s target).toNat } ∧
      step t = .next (withFault (.outOfBounds (valueIn s target) (valueIn s target).toNat) t)

/-! ### Halt -/

/-- R140 (with R141, whose choice of an advance of 0 is D6, the spec's own decision): `HLT` sets `HALT` and leaves `IP`
and everything else; any nonnegative Word whose last two digits are 99 is `HLT` (D4), in the last cell too, and the run
ends with `STOP = Halt`; a negative one is illegal (D3). That the `HLT`'s own `step` also ends the run is the model's
(log entry 5). -/
def Obligations.HltEndsTheRun : Prop :=
  (∀ s : State, exec .hlt s = .next { s with halt := true }) ∧
  (∀ (s : State) (w : Word), InRun s → s.ip < s.n → s.mem.get s.ip = w →
    (0 ≤ w → Int.tmod w 100 = 99 → step s = .next { s with stop := .halt, busy := false }) ∧
    (w < 0 → step s = .next (withFault (.decode s.ip w) s)))

/-- R142, R161, R207 with D6 (the spec's own decision): a further `RUN` of a machine that is idle on a `HLT` executes that
`HLT` again and ends at once with `Done(Halt)`, having changed nothing but `STOP`. That it ends within one step of the
model is log entry 5, the bound is log entry 11. -/
def Obligations.HaltedMachineStaysHalted : Prop :=
  ∀ (s : State) (fuel : Nat), s.busy = false → s.halt = false → s.err = none → s.ip < s.n →
    0 ≤ s.mem.get s.ip → Int.tmod (s.mem.get s.ip) 100 = 99 →
    runToEnd (fuel + 1) s = some ({ s with stop := .halt }, .doneHalt)

/-! ### Whole-machine rules -/

/-- Every step keeps the invariant: memory in canonical form within `N` cells, every datum a Word, `IP` a Word, the fault
record, `STOP`, `BUSY` and `HALT` consistent (R22 to R31, R177, R179). -/
def Obligations.StepKeepsInvariant : Prop :=
  ∀ (s t : State), s.Inv → step s = .next t → t.Inv

/-- R184: every instruction is available at all times. In the model that reads: executing any instruction in any state
answers a next state, on operands that fault because CORE's faults are next states (log entry 7); and so does every
step, idle (log entry 4) or leaving the run loop (log entry 6). -/
def Obligations.EveryInstructionExecutes : Prop :=
  (∀ (i : Instr) (s : State), ∃ t, exec i s = .next t) ∧ ∀ s : State, ∃ t, step s = .next t

/-- R90, R177 with D21 (the spec's own decision on the queues): an instruction that faults changes nothing but `ERR`,
`STOP` and `BUSY`, and its record names the pointer of the instruction. -/
def Obligations.FaultsArePrecise : Prop :=
  (∀ (i : Instr) (s t : State), s.err = none → exec i s = .next t → t.err ≠ none →
    ∃ e, t = withFault e s ∧ e.ip = s.ip) ∧
  (∀ (s t : State), InRun s → step s = .next t → t.err ≠ none → ∃ e, t = withFault e s ∧ e.ip = s.ip)

/-- R179, R162 with D11 (the spec's own decision): a faulted machine executes nothing: a step leaves it as it is, and no
host operation but `LOAD` changes `ERR`, `MEM`, `IP` or `OUTQ` or makes it busy. -/
def Obligations.FaultIsSticky : Prop :=
  ∀ (s : State) (e : FaultRecord), s.Inv → s.err = some e →
    step s = .next s ∧
    ∀ (op : HostOp) (t : State) (r : Reply), (∀ image susp, op ≠ .load image susp) →
      hostStep op s = .performed t r →
      t.err = some e ∧ t.mem = s.mem ∧ t.ip = s.ip ∧ t.outq = s.outq ∧ t.busy = false ∧
        (op = .run → r = .status (.failed e))

/-- R23, R27: no step changes `N`, `SUSP` or `XLEN`. -/
def Obligations.StepKeepsConstants : Prop :=
  ∀ (s t : State), step s = .next t → t.n = s.n ∧ t.susp = s.susp ∧ t.xlen = s.xlen

/-- R41: in every step only the destination cell of the instruction executed can change; `OUT`, `JT`, `JF` and `HLT` have
none and never write memory. -/
def Obligations.OnlyDestinationCellChanges : Prop :=
  ∀ (i : Instr) (s t : State), exec i s = .next t →
    (∀ a : Nat, (∀ d, destination i = some d → a ≠ d.toNat) → t.mem.get a = s.mem.get a) ∧
    (destination i = none → t.mem = s.mem)

/-- R24 (advance), R124: an instruction that completes advances `IP` by its fixed width, or, if it is `JT` or `JF`, sets it
to the value of its target; `HLT` leaves it (D6, the spec's own decision). -/
def Obligations.PointerAdvancesOrJumps : Prop :=
  ∀ (i : Instr) (s t : State), s.err = none → exec i s = .next t → t.err = none →
    t.ip = s.ip + ipAdvance i ∨
      ∃ target, jumpTarget i = some target ∧ Readable s target ∧ (t.ip : Int) = valueIn s target

/-- R25, R26, R91: a step takes at most one value from `INQ`, the head, and only `IN` does; it appends at most one value to
`OUTQ`, at the tail, and only `OUT` does. -/
def Obligations.QueuesAreFifo : Prop :=
  ∀ (i : Instr) (s t : State), exec i s = .next t →
    (t.inq = s.inq ∨ ((∃ d, i = .input d) ∧ ∃ v, s.inq = v :: t.inq)) ∧
    (t.outq = s.outq ∨ ((∃ a, i = .output a) ∧ ∃ v, t.outq = s.outq ++ [v]))

/-- R28: an instruction sets `HALT` only if it is `HLT`, or `OUT` under `SUSP = 1`; no instruction clears it; and between
steps of a run it is 0. -/
def Obligations.HaltFlagSetOnlyByHltAndSuspendingOut : Prop :=
  (∀ (i : Instr) (s t : State), exec i s = .next t →
    (s.halt = true → t.halt = true) ∧
    (s.halt = false → t.halt = true → i = .hlt ∨ ((∃ a, i = .output a) ∧ s.susp = true))) ∧
  (∀ (s t : State), s.halt = false → step s = .next t → t.halt = false)

/-- R47, R53: a store is seen by the fetch that follows it: when an instruction that writes memory (`ADD`, `MUL`, `IN`, `LT`
or `EQ`, at any destination) completes in a run, a fetch from any pointer that reaches the destination cell, as
instruction Word or as parameter Word, reads the Word just stored; in particular the next fetch, when the destination
is the next instruction's Word. -/
def Obligations.StoreIsSeenByNextFetch : Prop :=
  ∀ (s : State) (i : Instr) (rest : List Word) (d r : Word), InRun s → s.mem.wf s.n = true →
    decode (fetchWords s) = .instr i rest → destination i = some d → HasCell s d →
    (∀ o ∈ sourceOperands i, Readable s o) → storedResult s i = some r →
    (s.xlen.holds r = true ∨ i = .input d) →
    ∃ t, step s = .next t ∧ t.ip = s.ip + ipAdvance i ∧ InRun t ∧
      (∀ k j : Nat, j < 4 → k + j = d.toNat → (fetchWords (setIp t k))[j]? = some r) ∧
      (d = (s.ip : Int) + ipAdvance i → (fetchWords t).head? = some r)

/-! ### Runs -/

/-- R152: a run that is over leaves the machine idle with `HALT = 0`, stopped by `Halt`, `Suspend` or `Fault`, and by
`Fault` exactly when `ERR` holds a record. -/
def Obligations.RunEndsIdle : Prop :=
  ∀ (fuel : Nat) (s t : State), InRun s → runLoop fuel s = some t →
    t.busy = false ∧ t.halt = false ∧ (t.stop = .halt ∨ t.stop = .suspend ∨ t.stop = .fault) ∧
      (t.stop = .fault ↔ t.err ≠ none)

/-- R154 (an inference of the spec's own): under `SUSP = 1` a run that ends by suspension has appended exactly one output
and one that ends otherwise none; under `SUSP = 0` no run ends by suspension and any number may have been
appended, at the tail. -/
def Obligations.OutputsOfARun : Prop :=
  ∀ (fuel : Nat) (s t : State), InRun s → runLoop fuel s = some t →
    (s.susp = true →
      (t.stop = .suspend → ∃ v, t.outq = s.outq ++ [v]) ∧ (t.stop ≠ .suspend → t.outq = s.outq)) ∧
    (s.susp = false → t.stop ≠ .suspend ∧ ∃ q, t.outq = s.outq ++ q)

/-- R25, R112: a run takes a number of the oldest values of `INQ`, in order, and leaves the others queued; what it writes
is behind everything already in `OUTQ`. -/
def Obligations.RunConsumesOldestInput : Prop :=
  ∀ (fuel : Nat) (s t : State), runLoop fuel s = some t →
    (∃ taken, s.inq = taken ++ t.inq) ∧ ∃ written, t.outq = s.outq ++ written

/-- R153 (an inference of the spec's own): suspension only cuts a run. A run under `SUSP = 1` that ends by suspension is
the beginning of the same machine's run under `SUSP = 0`: after some number of steps that machine, still running, is
exactly where the suspended one continues from. -/
def Obligations.SuspensionOnlyCutsTheRun : Prop :=
  ∀ (fuel : Nat) (s t : State), InRun s → s.susp = true → runLoop fuel s = some t → t.stop = .suspend →
    ∃ k, 0 < k ∧ k ≤ fuel ∧
      Host.Core.run Sys2Proof.core k { s with susp := false } =
        .next { t with susp := false, busy := true, stop := s.stop }

/-- R210 (vector J10): a jump to itself hangs the run, whatever the modes of its operands: no bound on the steps ends
it. -/
def Obligations.SelfJumpHangsTheRun : Prop :=
  ∀ (s : State) (cond target : Operand) (rest : List Word), InRun s →
    (decode (fetchWords s) = .instr (.jt cond target) rest ∧ valueIn s cond ≠ 0 ∨
      decode (fetchWords s) = .instr (.jf cond target) rest ∧ valueIn s cond = 0) →
    Readable s cond → Readable s target → valueIn s target = s.ip →
    ∀ fuel, runLoop fuel s = none

/-- R160 (the distinction of the two `Done` cases is the spec's own addition, D17): the status of a completed `RUN` is
`Done(Halt)`, `Done(Suspend)` or `Failed(ERR)`, and `STOP` and `ERR` show the same afterwards. -/
def Obligations.CompletionStatus : Prop :=
  ∀ (fuel : Nat) (s t : State) (c : Status), s.Inv → runToEnd fuel s = some (t, c) →
    t.busy = false ∧
    ((c = .doneHalt ∧ t.stop = .halt ∧ t.err = none) ∨ (c = .doneSuspend ∧ t.stop = .suspend ∧ t.err = none) ∨
      ∃ e, c = .failed e ∧ t.stop = .fault ∧ t.err = some e)

/-- R165, R180: machines share nothing: whatever one machine does, a host operation, a step, a fault or a whole run, every
other machine of the host is as before, and what it does depends on no other machine. -/
def Obligations.MachinesShareNothing : Prop :=
  ∀ (f : Fleet) (k : Nat) (s : State), f[k]? = some s →
    (∀ op g r, fleetHost k op f = some (g, r) →
      (∀ j, j ≠ k → g[j]? = f[j]?) ∧ ∃ t, g[k]? = some t ∧ hostStep op s = .performed t r) ∧
    (∀ g, fleetStep k f = some g → (∀ j, j ≠ k → g[j]? = f[j]?) ∧ ∃ t, g[k]? = some t ∧ step s = .next t) ∧
    (∀ fuel g c, fleetRun fuel k f = some (g, c) →
      (∀ j, j ≠ k → g[j]? = f[j]?) ∧ ∃ t, g[k]? = some t ∧ runToEnd fuel s = some (t, c))

/-! ### The assembler -/

/-- R72, R73, R74 (D15, the spec's own notation): the image of a program is its lines' Words in order; a label before an
instruction or a `.word` stands for the address of the next Word emitted; and an instruction line is the canonical
encoding of its instruction, which decodes to it where it stands. That a label no Word follows, on the last line,
stands for the image's length is the model's choice, R73 being silent (log entry 10, DESIGN CHOICE); so is that a
program with a label undefined or defined twice has no image. -/
def Obligations.AssemblerPlacesLines : Prop :=
  ∀ (before after : List AsmLine) (line : AsmLine) (ws : List Word), assemble (before ++ line :: after) = some ws →
    let env := labelsFrom 0 (before ++ line :: after)
    ∃ u v w, emitLines env before = some u ∧ line.words env = some v ∧ emitLines env after = some w ∧
      ws = u ++ v ++ w ∧ v.length = line.size ∧
      (∀ name, line = .label name → env.lookup name = some u.length) ∧
      (∀ l, line = .instr l → ∃ i, l.resolve env = some i ∧ v = encode i ∧ decode (ws.drop u.length) = .instr i w)
end

