-- ==== Sys2Proof/Laws/Assembler.lean ====
section
/-! SUPPORT. Laws/Assembler.lean: sizes of assembled lines, and the label table and the emission of two programs one
after the other. -/

namespace Sys2Proof.Machine

/-- A line emits as many Words as its size says. -/
theorem AsmLine.words_length {env : LabelTable} {l : AsmLine} {v : List Word} (h : l.words env = some v) :
    v.length = l.size := by
  cases l with
  | label => cases h; rfl
  | word vs => cases h; rfl
  | instr i =>
    simp only [AsmLine.words, Option.map_eq_some_iff] at h
    obtain ⟨i', e, rfl⟩ := h
    cases i <;> simp [AsmInstr.resolve, Option.bind_eq_some_iff, Option.map_eq_some_iff] at e
    case hlt => subst e; rfl
    case input => obtain ⟨_, _, rfl⟩ := e; rfl
    case output => obtain ⟨_, _, rfl⟩ := e; rfl
    case jt => obtain ⟨_, _, _, _, rfl⟩ := e; rfl
    case jf => obtain ⟨_, _, _, _, rfl⟩ := e; rfl
    all_goals (obtain ⟨_, _, _, _, _, _, rfl⟩ := e; rfl)

theorem emitLines_length {env : LabelTable} {ls : List AsmLine} {u : List Word} (h : emitLines env ls = some u) :
    u.length = (ls.map AsmLine.size).sum := by
  induction ls generalizing u with
  | nil => cases h; rfl
  | cons l ls ih =>
    simp only [emitLines, Option.bind_eq_some_iff, Option.map_eq_some_iff] at h
    obtain ⟨v, hv, w, hw, rfl⟩ := h
    simp [AsmLine.words_length hv, ih hw]

theorem emitLines_append {env : LabelTable} {xs ys : List AsmLine} {ws : List Word}
    (h : emitLines env (xs ++ ys) = some ws) :
    ∃ u w, emitLines env xs = some u ∧ emitLines env ys = some w ∧ ws = u ++ w := by
  induction xs generalizing ws with
  | nil => exact ⟨[], ws, rfl, h, rfl⟩
  | cons l ls ih =>
    simp only [List.cons_append, emitLines, Option.bind_eq_some_iff, Option.map_eq_some_iff] at h
    obtain ⟨v, hv, w, hw, rfl⟩ := h
    obtain ⟨u, w', hu, hw', rfl⟩ := ih hw
    exact ⟨v ++ u, w', by simp [emitLines, hv, hu], hw', by simp⟩

theorem labelsFrom_append (a : Nat) (xs ys : List AsmLine) :
    labelsFrom a (xs ++ ys) = labelsFrom a xs ++ labelsFrom (a + (xs.map AsmLine.size).sum) ys := by
  induction xs generalizing a with
  | nil => simp [labelsFrom]
  | cons l ls ih => cases l <;> simp [labelsFrom, ih, AsmLine.size, Nat.add_assoc]

/-- A label defined once is found, wherever it stands in the table. -/
theorem lookup_of_nodup {xs ys : LabelTable} {name : String} {a : Nat}
    (h : ((xs ++ (name, a) :: ys).map Prod.fst).Nodup) : (xs ++ (name, a) :: ys).lookup name = some a := by
  induction xs with
  | nil => simp
  | cons p xs ih =>
    obtain ⟨m, b⟩ := p
    simp at h
    have e : (name == m) = false := by
      simp
      rintro rfl
      exact h.1.2.1 rfl
    simp only [List.cons_append, List.lookup, e]
    exact ih (by simpa using h.2)

end Sys2Proof.Machine
end

