-- ==== Sys2Proof/Laws/Decode.lean ====
section
/-! SUPPORT. Laws/Decode.lean: one lemma per opcode of the map (spec/30_encoding.md R67), the rejection of every other
Word, what resolving a parameter can do, and the digits of a canonical instruction Word (R63). -/

namespace Sys2Proof

theorem decode_add {w : Word} (h : opcodeOf w = 1) (ps : List Word) : decode (w :: ps) = decodeRRW w ps .add := by
  simp [decode, h]
theorem decode_mul {w : Word} (h : opcodeOf w = 2) (ps : List Word) : decode (w :: ps) = decodeRRW w ps .mul := by
  simp [decode, h]
theorem decode_input {w : Word} (h : opcodeOf w = 3) (ps : List Word) : decode (w :: ps) = decodeW w ps .input := by
  simp [decode, h]
theorem decode_output {w : Word} (h : opcodeOf w = 4) (ps : List Word) : decode (w :: ps) = decodeR w ps .output := by
  simp [decode, h]
theorem decode_jt {w : Word} (h : opcodeOf w = 5) (ps : List Word) : decode (w :: ps) = decodeRR w ps .jt := by
  simp [decode, h]
theorem decode_jf {w : Word} (h : opcodeOf w = 6) (ps : List Word) : decode (w :: ps) = decodeRR w ps .jf := by
  simp [decode, h]
theorem decode_lt {w : Word} (h : opcodeOf w = 7) (ps : List Word) : decode (w :: ps) = decodeRRW w ps .lt := by
  simp [decode, h]
theorem decode_eq {w : Word} (h : opcodeOf w = 8) (ps : List Word) : decode (w :: ps) = decodeRRW w ps .eq := by
  simp [decode, h]
theorem decode_hlt {w : Word} (h : opcodeOf w = 99) (ps : List Word) : decode (w :: ps) = .instr .hlt ps := by
  simp [decode, h]

/-- The opcodes of the map. -/
theorem opcode_cases (op : Int) :
    op = 1 ∨ op = 2 ∨ op = 3 ∨ op = 4 ∨ op = 5 ∨ op = 6 ∨ op = 7 ∨ op = 8 ∨ op = 99 ∨
      Machine.formatOf op = none := by
  unfold Machine.formatOf
  split_ifs <;> first | omega | simp

/-- R68: any other Word is rejected, whatever follows it. -/
theorem decode_unknown {w : Word} (h : Machine.formatOf (opcodeOf w) = none) (ps : List Word) :
    decode (w :: ps) = .reject .unknownOpcode := by
  unfold Machine.formatOf at h
  simp only [decode]
  split_ifs at h
  split_ifs <;> first | rfl | tauto

/-- What resolving a read parameter can do (R88). -/
theorem withRead_cons {i : Nat} {m : Int} {p : Word} {ps : List Word} {k : Operand → List Word → Decoded} {mode : Mode}
    (h : modeOf m = some mode) : withRead i m (p :: ps) k = k ⟨mode, p⟩ ps := by
  simp [withRead, h]

/-- What resolving a write parameter can do (R88). -/
theorem withWrite_cons {i : Nat} {m : Int} {p : Word} {ps : List Word} {k : Word → List Word → Decoded}
    (h : modeOf m = some .positional) : withWrite i m (p :: ps) k = k p ps := by
  simp [withWrite, h]

theorem withRead_instr {i : Nat} {m : Int} {ps : List Word} {k : Operand → List Word → Decoded} {j : Instr}
    {rest : List Word} (h : withRead i m ps k = .instr j rest) :
    ∃ mode p ps', ps = p :: ps' ∧ modeOf m = some mode ∧ k ⟨mode, p⟩ ps' = .instr j rest := by
  unfold withRead at h
  split at h
  · cases h
  · split at h
    · exact ⟨_, _, _, rfl, ‹_›, h⟩
    · cases h

theorem withWrite_instr {i : Nat} {m : Int} {ps : List Word} {k : Word → List Word → Decoded} {j : Instr}
    {rest : List Word} (h : withWrite i m ps k = .instr j rest) :
    ∃ p ps', ps = p :: ps' ∧ modeOf m = some .positional ∧ k p ps' = .instr j rest := by
  unfold withWrite at h
  split at h
  · cases h
  · split at h
    · exact ⟨_, _, rfl, ‹_›, h⟩
    · cases h
    · cases h

theorem modeOf_iff (m : Int) (mode : Mode) : modeOf m = some mode ↔ m = mode.digit := by
  unfold modeOf
  cases mode <;> split_ifs <;> simp_all [Mode.digit]

theorem modeOf_none (m : Int) : modeOf m = none ↔ m ≠ 0 ∧ m ≠ 1 := by
  unfold modeOf
  split_ifs <;> simp_all

@[simp] theorem modeOf_digit (mode : Mode) : modeOf mode.digit = some mode := (modeOf_iff _ _).2 rfl

theorem mode1_eq (w : Word) : mode1 w = Machine.modeDigit w 0 := rfl
theorem mode2_eq (w : Word) : mode2 w = Machine.modeDigit w 1 := rfl
theorem mode3_eq (w : Word) : mode3 w = Machine.modeDigit w 2 := rfl

/-- What an instruction of format `RRW` was decoded from. -/
theorem decodeRRW_instr {w : Word} {ps rest : List Word} {i : Instr} {mk : Operand → Operand → Word → Instr}
    (h : decodeRRW w ps mk = .instr i rest) :
    ∃ a b dst, i = mk a b dst ∧ ps = a.word :: b.word :: dst :: rest ∧ mode1 w = a.mode.digit ∧
      mode2 w = b.mode.digit ∧ mode3 w = 0 := by
  obtain ⟨m, p, ps, rfl, hm, h⟩ := withRead_instr h
  obtain ⟨m', q, ps, rfl, hm', h⟩ := withRead_instr h
  obtain ⟨d, ps, rfl, hd, h⟩ := withWrite_instr h
  cases h
  exact ⟨⟨m, p⟩, ⟨m', q⟩, d, rfl, rfl, (modeOf_iff _ _).1 hm, (modeOf_iff _ _).1 hm', (modeOf_iff _ _).1 hd⟩

/-- What an instruction of format `RR` was decoded from. -/
theorem decodeRR_instr {w : Word} {ps rest : List Word} {i : Instr} {mk : Operand → Operand → Instr}
    (h : decodeRR w ps mk = .instr i rest) :
    ∃ a b, i = mk a b ∧ ps = a.word :: b.word :: rest ∧ mode1 w = a.mode.digit ∧ mode2 w = b.mode.digit := by
  obtain ⟨m, p, ps, rfl, hm, h⟩ := withRead_instr h
  obtain ⟨m', q, ps, rfl, hm', h⟩ := withRead_instr h
  cases h
  exact ⟨⟨m, p⟩, ⟨m', q⟩, rfl, rfl, (modeOf_iff _ _).1 hm, (modeOf_iff _ _).1 hm'⟩

/-- What an instruction of format `R` was decoded from. -/
theorem decodeR_instr {w : Word} {ps rest : List Word} {i : Instr} {mk : Operand → Instr}
    (h : decodeR w ps mk = .instr i rest) : ∃ a, i = mk a ∧ ps = a.word :: rest ∧ mode1 w = a.mode.digit := by
  obtain ⟨m, p, ps, rfl, hm, h⟩ := withRead_instr h
  cases h
  exact ⟨⟨m, p⟩, rfl, rfl, (modeOf_iff _ _).1 hm⟩

/-- What an instruction of format `W` was decoded from. -/
theorem decodeW_instr {w : Word} {ps rest : List Word} {i : Instr} {mk : Word → Instr}
    (h : decodeW w ps mk = .instr i rest) : ∃ dst, i = mk dst ∧ ps = dst :: rest ∧ mode1 w = 0 := by
  obtain ⟨p, ps, rfl, hm, h⟩ := withWrite_instr h
  cases h
  exact ⟨p, rfl, rfl, (modeOf_iff _ _).1 hm⟩

/-- The decoder looks at the four fields of the instruction Word only (R62). -/
theorem decode_congr {v w : Word} (h : opcodeOf v = opcodeOf w) (h1 : mode1 v = mode1 w) (h2 : mode2 v = mode2 w)
    (h3 : mode3 v = mode3 w) (ps : List Word) : decode (v :: ps) = decode (w :: ps) := by
  simp only [decode, decodeRRW, decodeRR, decodeR, decodeW, h, h1, h2, h3]

/-- The parameter Words of a decoded instruction are Words of the list it was decoded from. -/
theorem params_of_decode {ws rest : List Word} {i : Instr} (h : decode ws = .instr i rest) :
    ∃ w, ws = w :: (i.params ++ rest) := by
  cases ws with
  | nil => cases h
  | cons w ps =>
    refine ⟨w, ?_⟩
    rcases opcode_cases (opcodeOf w) with e | e | e | e | e | e | e | e | e | e
    · rw [decode_add e] at h
      obtain ⟨a, b, d, rfl, rfl, -⟩ := decodeRRW_instr h
      rfl
    · rw [decode_mul e] at h
      obtain ⟨a, b, d, rfl, rfl, -⟩ := decodeRRW_instr h
      rfl
    · rw [decode_input e] at h
      obtain ⟨d, rfl, rfl, -⟩ := decodeW_instr h
      rfl
    · rw [decode_output e] at h
      obtain ⟨a, rfl, rfl, -⟩ := decodeR_instr h
      rfl
    · rw [decode_jt e] at h
      obtain ⟨a, b, rfl, rfl, -⟩ := decodeRR_instr h
      rfl
    · rw [decode_jf e] at h
      obtain ⟨a, b, rfl, rfl, -⟩ := decodeRR_instr h
      rfl
    · rw [decode_lt e] at h
      obtain ⟨a, b, d, rfl, rfl, -⟩ := decodeRRW_instr h
      rfl
    · rw [decode_eq e] at h
      obtain ⟨a, b, d, rfl, rfl, -⟩ := decodeRRW_instr h
      rfl
    · rw [decode_hlt e] at h
      cases h
      rfl
    · rw [decode_unknown e] at h
      cases h

/-- On a nonnegative Word the fields are plain decimal digits (R10, R61, R62). -/
theorem fields_of_nat (n : Nat) :
    opcodeOf (n : Int) = (n % 100 : Nat) ∧ mode1 (n : Int) = (n / 100 % 10 : Nat) ∧
      mode2 (n : Int) = (n / 1000 % 10 : Nat) ∧ mode3 (n : Int) = (n / 10000 % 10 : Nat) :=
  ⟨rfl, rfl, rfl, rfl⟩

end Sys2Proof
end

