-- ==== Sys2Proof/Laws/Fleet.lean ====
section
/-! SUPPORT. Laws/Fleet.lean: what an operation on one machine of a fleet can do, said once. -/

namespace Sys2Proof.Machine

/-- The machine that acted has changed, the others have not. -/
theorem fleet_set {f : Fleet} {k : Nat} {s : State} (h : f[k]? = some s) (t : State) :
    (f.set k t)[k]? = some t ∧ ∀ j, j ≠ k → (f.set k t)[j]? = f[j]? := by
  have hk : k < f.length := (List.getElem?_eq_some_iff.1 h).1
  exact ⟨by simp [hk], fun j hj => List.getElem?_set_ne (Ne.symm hj)⟩

theorem fleetHost_cases {f g : Fleet} {k : Nat} {op : HostOp} {r : Reply} (h : fleetHost k op f = some (g, r)) :
    ∃ s t, f[k]? = some s ∧ hostStep op s = .performed t r ∧ g = f.set k t := by
  unfold fleetHost at h
  split at h
  · cases h
  · rename_i s hs
    split at h
    · cases h
    · rename_i t r' e
      cases h
      exact ⟨s, t, hs, e, rfl⟩

theorem fleetStep_cases {f g : Fleet} {k : Nat} (h : fleetStep k f = some g) :
    ∃ s t, f[k]? = some s ∧ step s = .next t ∧ g = f.set k t := by
  unfold fleetStep at h
  split at h
  · cases h
  · rename_i s hs
    split at h
    · rename_i t e
      cases h
      exact ⟨s, t, hs, e, rfl⟩
    · cases h
    · cases h

end Sys2Proof.Machine
end

