-- ==== Sys2Proof/Laws/Memory.lean ====
section
/-! SUPPORT. Laws/Memory.lean: read after write, the canonical form, and the image (spec/20_memory.md R46, R49). -/

namespace Sys2Proof.Machine

@[simp] theorem get_nil (a : Nat) : Memory.get [] a = 0 := rfl

theorem get_cons (b a : Nat) (v : Word) (m : Memory) :
    Memory.get ((b, v) :: m) a = if a = b then v else Memory.get m a := rfl

/-- Listing a cell in front of a memory in which it reads 0. -/
theorem get_consCell (a c : Nat) (v : Word) (m : Memory) (h : m.get a = 0) :
    (Memory.cons a v m).get c = if c = a then v else m.get c := by
  unfold Memory.cons
  by_cases hv : v = 0
  · by_cases hc : c = a <;> simp [hv, hc, h]
  · simp [hv, get_cons]

/-- Listing a cell changes no other cell, in any list. -/
theorem get_consCell_ne (a c : Nat) (v : Word) (m : Memory) (h : c ≠ a) : (Memory.cons a v m).get c = m.get c := by
  unfold Memory.cons
  split <;> simp [get_cons, h]

/-- Below the least address listed every cell reads 0. -/
theorem get_below {n lo : Nat} {m : Memory} (h : m.wfFrom n lo = true) {a : Nat} (ha : a < lo) : m.get a = 0 := by
  induction m generalizing lo with
  | nil => rfl
  | cons c m ih =>
    obtain ⟨b, v⟩ := c
    simp only [Memory.wfFrom, Bool.and_eq_true, decide_eq_true_eq] at h
    rw [get_cons, if_neg (by omega)]
    exact ih h.2 (by omega)

theorem wfFrom_mono {n lo lo' : Nat} {m : Memory} (h : m.wfFrom n lo = true) (le : lo' ≤ lo) :
    m.wfFrom n lo' = true := by
  cases m with
  | nil => rfl
  | cons c m =>
    obtain ⟨b, v⟩ := c
    simp only [Memory.wfFrom, Bool.and_eq_true, decide_eq_true_eq] at *
    exact ⟨⟨⟨by omega, h.1.1.2⟩, h.1.2⟩, h.2⟩

/-- A write leaves every other cell alone, in any list. -/
theorem get_set_ne (m : Memory) (a c : Nat) (v : Word) (h : c ≠ a) : (m.set a v).get c = m.get c := by
  induction m with
  | nil => simp [Memory.set, get_consCell_ne _ _ _ _ h]
  | cons e m ih =>
    obtain ⟨b, u⟩ := e
    unfold Memory.set
    split
    · exact get_consCell_ne _ _ _ _ h
    · split
      · rename_i hb
        subst hb
        rw [get_consCell_ne _ _ _ _ h, get_cons, if_neg h]
      · rw [get_cons, get_cons, ih]

/-- A read after a write gives the Word written. -/
theorem get_set_from {n lo : Nat} {m : Memory} (h : m.wfFrom n lo = true) (a : Nat) (v : Word) :
    (m.set a v).get a = v := by
  induction m generalizing lo with
  | nil => simp [Memory.set, get_consCell a a v [] rfl]
  | cons e m ih =>
    obtain ⟨b, u⟩ := e
    simp only [Memory.wfFrom, Bool.and_eq_true, decide_eq_true_eq] at h
    unfold Memory.set
    split
    · have hz : Memory.get ((b, u) :: m) a = 0 := by
        rw [get_cons, if_neg (by omega)]
        exact get_below h.2 (by omega)
      simp [get_consCell _ _ _ _ hz]
    · split
      · rename_i hb
        subst hb
        simp [get_consCell a a v m (get_below h.2 (Nat.lt_succ_self a))]
      · rw [get_cons, if_neg (by omega)]
        exact ih h.2

theorem get_set (n : Nat) (m : Memory) (h : m.wf n = true) (a c : Nat) (v : Word) :
    (m.set a v).get c = if c = a then v else m.get c := by
  split
  · rename_i e
    subst e
    exact get_set_from h c v
  · exact get_set_ne m a c v ‹_›

theorem wfFrom_consCell {n lo a : Nat} {v : Word} {m : Memory} (h : m.wfFrom n (a + 1) = true) (lo_le : lo ≤ a)
    (a_lt : a < n) : (Memory.cons a v m).wfFrom n lo = true := by
  unfold Memory.cons
  split
  · exact wfFrom_mono h (by omega)
  · simp_all [Memory.wfFrom]

/-- A write in bounds keeps the canonical form. -/
theorem set_wfFrom {n lo : Nat} {m : Memory} (h : m.wfFrom n lo = true) (a : Nat) (v : Word) (lo_le : lo ≤ a)
    (a_lt : a < n) : (m.set a v).wfFrom n lo = true := by
  induction m generalizing lo with
  | nil => exact wfFrom_consCell rfl lo_le a_lt
  | cons e m ih =>
    obtain ⟨b, u⟩ := e
    have h' := h
    simp only [Memory.wfFrom, Bool.and_eq_true, decide_eq_true_eq] at h
    unfold Memory.set
    split
    · exact wfFrom_consCell (by simp_all [Memory.wfFrom]) lo_le a_lt
    · split
      · rename_i hb
        subst hb
        exact wfFrom_consCell h.2 lo_le a_lt
      · simp only [Memory.wfFrom, Bool.and_eq_true, decide_eq_true_eq]
        exact ⟨h.1, ih h.2 (by omega)⟩

theorem set_wf {n : Nat} {m : Memory} (h : m.wf n = true) {a : Nat} (ha : a < n) (v : Word) :
    (m.set a v).wf n = true :=
  set_wfFrom h a v (Nat.zero_le a) ha

/-- Every Word listed after a write was listed before or is the Word written. -/
theorem mem_set {m : Memory} {a : Nat} {v : Word} {c : Nat × Word} (h : c ∈ m.set a v) : c ∈ m ∨ c = (a, v) := by
  induction m with
  | nil => by_cases hv : v = 0 <;> simp_all [Memory.set, Memory.cons]
  | cons e m ih =>
    obtain ⟨b, u⟩ := e
    unfold Memory.set Memory.cons at h
    split at h
    · split at h <;> simp_all
      tauto
    · split at h
      · split at h <;> simp_all
        tauto
      · rcases List.mem_cons.1 h with h | h
        · exact .inl (h ▸ List.mem_cons_self)
        · exact (ih h).imp (List.mem_cons_of_mem _) id

/-- A cell read is 0 or a Word listed. -/
theorem get_mem_or_zero (m : Memory) (a : Nat) : m.get a = 0 ∨ ∃ b, (b, m.get a) ∈ m := by
  induction m with
  | nil => exact .inl rfl
  | cons e m ih =>
    obtain ⟨b, u⟩ := e
    rw [get_cons]
    split
    · exact .inr ⟨b, List.mem_cons_self⟩
    · exact ih.imp id (fun ⟨c, h⟩ => ⟨c, List.mem_cons_of_mem _ h⟩)

theorem ofImage_wfFrom {n lo : Nat} (image : List Word) (h : lo + image.length ≤ n) :
    (Memory.ofImage lo image).wfFrom n lo = true := by
  induction image generalizing lo with
  | nil => rfl
  | cons v vs ih =>
    simp only [List.length_cons] at h
    exact wfFrom_consCell (ih (by omega)) (Nat.le_refl lo) (by omega)

/-- Loading an image gives the canonical form (R34). -/
theorem ofImage_wf (image : List Word) : (Memory.ofImage 0 image).wf image.length = true :=
  ofImage_wfFrom image (by omega)

/-- `MEM[i] = image[i]` (R34), 0 past the image. -/
theorem get_ofImage (image : List Word) (lo i : Nat) :
    (Memory.ofImage lo image).get (lo + i) = image[i]?.getD 0 := by
  induction image generalizing lo i with
  | nil => simp [Memory.ofImage]
  | cons v vs ih =>
    have hz : (Memory.ofImage (lo + 1) vs).get lo = 0 :=
      get_below (ofImage_wfFrom (n := lo + 1 + vs.length) vs (by omega)) (by omega)
    rw [Memory.ofImage, get_consCell _ _ _ _ hz]
    cases i with
    | zero => simp
    | succ i =>
      rw [if_neg (by omega), show lo + (i + 1) = lo + 1 + i by omega, ih]
      simp

theorem mem_ofImage {image : List Word} {lo : Nat} {c : Nat × Word} (h : c ∈ Memory.ofImage lo image) :
    c.2 ∈ image := by
  induction image generalizing lo with
  | nil => simp [Memory.ofImage] at h
  | cons v vs ih =>
    unfold Memory.ofImage Memory.cons at h
    split at h
    · exact List.mem_cons_of_mem _ (ih h)
    · rcases List.mem_cons.1 h with h | h
      · simp [h]
      · exact List.mem_cons_of_mem _ (ih h)

/-- The window of cells from `a` on: cell `a + i` if it exists and fewer than `k` precede it. -/
theorem getElem?_window (m : Memory) (n a k i : Nat) :
    (m.window n a k)[i]? = if i < k ∧ a + i < n then some (m.get (a + i)) else none := by
  induction k generalizing a i with
  | zero => simp [Memory.window]
  | succ k ih =>
    unfold Memory.window
    by_cases h : a < n
    · cases i with
      | zero => simp [h]
      | succ i =>
        rw [if_pos h, List.getElem?_cons_succ, ih]
        simp only [Nat.add_lt_add_iff_right, show a + 1 + i = a + (i + 1) by omega]
    · rw [if_neg h, List.getElem?_nil, if_neg (by omega)]

end Sys2Proof.Machine
end

