-- ==== Sys2Proof/Laws/State.lean ====
section
/-! SUPPORT. Laws/State.lean: what each update of State leaves in each field, so that no proof unfolds an update. -/

namespace Sys2Proof.Machine

/-! `storeWord` -/

@[simp] theorem storeWord_xlen (s : State) (d : Nat) (v : Word) : (storeWord s d v).xlen = s.xlen := rfl
@[simp] theorem storeWord_mem (s : State) (d : Nat) (v : Word) : (storeWord s d v).mem = s.mem.set d v := rfl
@[simp] theorem storeWord_n (s : State) (d : Nat) (v : Word) : (storeWord s d v).n = s.n := rfl
@[simp] theorem storeWord_ip (s : State) (d : Nat) (v : Word) : (storeWord s d v).ip = s.ip := rfl
@[simp] theorem storeWord_inq (s : State) (d : Nat) (v : Word) : (storeWord s d v).inq = s.inq := rfl
@[simp] theorem storeWord_outq (s : State) (d : Nat) (v : Word) : (storeWord s d v).outq = s.outq := rfl
@[simp] theorem storeWord_susp (s : State) (d : Nat) (v : Word) : (storeWord s d v).susp = s.susp := rfl
@[simp] theorem storeWord_halt (s : State) (d : Nat) (v : Word) : (storeWord s d v).halt = s.halt := rfl
@[simp] theorem storeWord_busy (s : State) (d : Nat) (v : Word) : (storeWord s d v).busy = s.busy := rfl
@[simp] theorem storeWord_err (s : State) (d : Nat) (v : Word) : (storeWord s d v).err = s.err := rfl
@[simp] theorem storeWord_stop (s : State) (d : Nat) (v : Word) : (storeWord s d v).stop = s.stop := rfl

/-! `setIp` -/

@[simp] theorem setIp_xlen (s : State) (a : Nat) : (setIp s a).xlen = s.xlen := rfl
@[simp] theorem setIp_mem (s : State) (a : Nat) : (setIp s a).mem = s.mem := rfl
@[simp] theorem setIp_n (s : State) (a : Nat) : (setIp s a).n = s.n := rfl
@[simp] theorem setIp_ip (s : State) (a : Nat) : (setIp s a).ip = a := rfl
@[simp] theorem setIp_inq (s : State) (a : Nat) : (setIp s a).inq = s.inq := rfl
@[simp] theorem setIp_outq (s : State) (a : Nat) : (setIp s a).outq = s.outq := rfl
@[simp] theorem setIp_susp (s : State) (a : Nat) : (setIp s a).susp = s.susp := rfl
@[simp] theorem setIp_halt (s : State) (a : Nat) : (setIp s a).halt = s.halt := rfl
@[simp] theorem setIp_busy (s : State) (a : Nat) : (setIp s a).busy = s.busy := rfl
@[simp] theorem setIp_err (s : State) (a : Nat) : (setIp s a).err = s.err := rfl
@[simp] theorem setIp_stop (s : State) (a : Nat) : (setIp s a).stop = s.stop := rfl

/-! `advance` -/

@[simp] theorem advance_xlen (s : State) (k : Nat) : (advance s k).xlen = s.xlen := rfl
@[simp] theorem advance_mem (s : State) (k : Nat) : (advance s k).mem = s.mem := rfl
@[simp] theorem advance_n (s : State) (k : Nat) : (advance s k).n = s.n := rfl
@[simp] theorem advance_ip (s : State) (k : Nat) : (advance s k).ip = s.ip + k := rfl
@[simp] theorem advance_inq (s : State) (k : Nat) : (advance s k).inq = s.inq := rfl
@[simp] theorem advance_outq (s : State) (k : Nat) : (advance s k).outq = s.outq := rfl
@[simp] theorem advance_susp (s : State) (k : Nat) : (advance s k).susp = s.susp := rfl
@[simp] theorem advance_halt (s : State) (k : Nat) : (advance s k).halt = s.halt := rfl
@[simp] theorem advance_busy (s : State) (k : Nat) : (advance s k).busy = s.busy := rfl
@[simp] theorem advance_err (s : State) (k : Nat) : (advance s k).err = s.err := rfl
@[simp] theorem advance_stop (s : State) (k : Nat) : (advance s k).stop = s.stop := rfl

/-! `setInq` -/

@[simp] theorem setInq_xlen (s : State) (q : List Word) : (setInq s q).xlen = s.xlen := rfl
@[simp] theorem setInq_mem (s : State) (q : List Word) : (setInq s q).mem = s.mem := rfl
@[simp] theorem setInq_n (s : State) (q : List Word) : (setInq s q).n = s.n := rfl
@[simp] theorem setInq_ip (s : State) (q : List Word) : (setInq s q).ip = s.ip := rfl
@[simp] theorem setInq_inq (s : State) (q : List Word) : (setInq s q).inq = q := rfl
@[simp] theorem setInq_outq (s : State) (q : List Word) : (setInq s q).outq = s.outq := rfl
@[simp] theorem setInq_susp (s : State) (q : List Word) : (setInq s q).susp = s.susp := rfl
@[simp] theorem setInq_halt (s : State) (q : List Word) : (setInq s q).halt = s.halt := rfl
@[simp] theorem setInq_busy (s : State) (q : List Word) : (setInq s q).busy = s.busy := rfl
@[simp] theorem setInq_err (s : State) (q : List Word) : (setInq s q).err = s.err := rfl
@[simp] theorem setInq_stop (s : State) (q : List Word) : (setInq s q).stop = s.stop := rfl

/-! `pushOutq` -/

@[simp] theorem pushOutq_xlen (s : State) (v : Word) : (pushOutq s v).xlen = s.xlen := rfl
@[simp] theorem pushOutq_mem (s : State) (v : Word) : (pushOutq s v).mem = s.mem := rfl
@[simp] theorem pushOutq_n (s : State) (v : Word) : (pushOutq s v).n = s.n := rfl
@[simp] theorem pushOutq_ip (s : State) (v : Word) : (pushOutq s v).ip = s.ip := rfl
@[simp] theorem pushOutq_inq (s : State) (v : Word) : (pushOutq s v).inq = s.inq := rfl
@[simp] theorem pushOutq_outq (s : State) (v : Word) : (pushOutq s v).outq = s.outq ++ [v] := rfl
@[simp] theorem pushOutq_susp (s : State) (v : Word) : (pushOutq s v).susp = s.susp := rfl
@[simp] theorem pushOutq_halt (s : State) (v : Word) : (pushOutq s v).halt = s.halt := rfl
@[simp] theorem pushOutq_busy (s : State) (v : Word) : (pushOutq s v).busy = s.busy := rfl
@[simp] theorem pushOutq_err (s : State) (v : Word) : (pushOutq s v).err = s.err := rfl
@[simp] theorem pushOutq_stop (s : State) (v : Word) : (pushOutq s v).stop = s.stop := rfl

/-! `setHalt` -/

@[simp] theorem setHalt_xlen (s : State) : (setHalt s).xlen = s.xlen := rfl
@[simp] theorem setHalt_mem (s : State) : (setHalt s).mem = s.mem := rfl
@[simp] theorem setHalt_n (s : State) : (setHalt s).n = s.n := rfl
@[simp] theorem setHalt_ip (s : State) : (setHalt s).ip = s.ip := rfl
@[simp] theorem setHalt_inq (s : State) : (setHalt s).inq = s.inq := rfl
@[simp] theorem setHalt_outq (s : State) : (setHalt s).outq = s.outq := rfl
@[simp] theorem setHalt_susp (s : State) : (setHalt s).susp = s.susp := rfl
@[simp] theorem setHalt_halt (s : State) : (setHalt s).halt = true := rfl
@[simp] theorem setHalt_busy (s : State) : (setHalt s).busy = s.busy := rfl
@[simp] theorem setHalt_err (s : State) : (setHalt s).err = s.err := rfl
@[simp] theorem setHalt_stop (s : State) : (setHalt s).stop = s.stop := rfl

/-! `takeFault` -/

@[simp] theorem takeFault_xlen (e : FaultRecord) (s : State) : (takeFault e s).xlen = s.xlen := rfl
@[simp] theorem takeFault_mem (e : FaultRecord) (s : State) : (takeFault e s).mem = s.mem := rfl
@[simp] theorem takeFault_n (e : FaultRecord) (s : State) : (takeFault e s).n = s.n := rfl
@[simp] theorem takeFault_ip (e : FaultRecord) (s : State) : (takeFault e s).ip = s.ip := rfl
@[simp] theorem takeFault_inq (e : FaultRecord) (s : State) : (takeFault e s).inq = s.inq := rfl
@[simp] theorem takeFault_outq (e : FaultRecord) (s : State) : (takeFault e s).outq = s.outq := rfl
@[simp] theorem takeFault_susp (e : FaultRecord) (s : State) : (takeFault e s).susp = s.susp := rfl
@[simp] theorem takeFault_halt (e : FaultRecord) (s : State) : (takeFault e s).halt = s.halt := rfl
@[simp] theorem takeFault_busy (e : FaultRecord) (s : State) : (takeFault e s).busy = false := rfl
@[simp] theorem takeFault_err (e : FaultRecord) (s : State) : (takeFault e s).err = some e := rfl
@[simp] theorem takeFault_stop (e : FaultRecord) (s : State) : (takeFault e s).stop = .fault := rfl

/-! `startRun` -/

@[simp] theorem startRun_xlen (s : State) : (startRun s).xlen = s.xlen := rfl
@[simp] theorem startRun_mem (s : State) : (startRun s).mem = s.mem := rfl
@[simp] theorem startRun_n (s : State) : (startRun s).n = s.n := rfl
@[simp] theorem startRun_ip (s : State) : (startRun s).ip = s.ip := rfl
@[simp] theorem startRun_inq (s : State) : (startRun s).inq = s.inq := rfl
@[simp] theorem startRun_outq (s : State) : (startRun s).outq = s.outq := rfl
@[simp] theorem startRun_susp (s : State) : (startRun s).susp = s.susp := rfl
@[simp] theorem startRun_halt (s : State) : (startRun s).halt = s.halt := rfl
@[simp] theorem startRun_busy (s : State) : (startRun s).busy = true := rfl
@[simp] theorem startRun_err (s : State) : (startRun s).err = s.err := rfl
@[simp] theorem startRun_stop (s : State) : (startRun s).stop = s.stop := rfl

/-! `endRun` -/

@[simp] theorem endRun_xlen (c : StopCause) (s : State) : (endRun c s).xlen = s.xlen := rfl
@[simp] theorem endRun_mem (c : StopCause) (s : State) : (endRun c s).mem = s.mem := rfl
@[simp] theorem endRun_n (c : StopCause) (s : State) : (endRun c s).n = s.n := rfl
@[simp] theorem endRun_ip (c : StopCause) (s : State) : (endRun c s).ip = s.ip := rfl
@[simp] theorem endRun_inq (c : StopCause) (s : State) : (endRun c s).inq = s.inq := rfl
@[simp] theorem endRun_outq (c : StopCause) (s : State) : (endRun c s).outq = s.outq := rfl
@[simp] theorem endRun_susp (c : StopCause) (s : State) : (endRun c s).susp = s.susp := rfl
@[simp] theorem endRun_halt (c : StopCause) (s : State) : (endRun c s).halt = false := rfl
@[simp] theorem endRun_busy (c : StopCause) (s : State) : (endRun c s).busy = false := rfl
@[simp] theorem endRun_err (c : StopCause) (s : State) : (endRun c s).err = s.err := rfl
@[simp] theorem endRun_stop (c : StopCause) (s : State) : (endRun c s).stop = c := rfl

/-! `haltWhenSuspending` -/

/-- R113 in one update: `HALT` becomes 1 exactly when `SUSP = 1`. -/
theorem haltWhenSuspending_eq (s : State) : haltWhenSuspending s = { s with halt := s.halt || s.susp } := by
  cases s with
  | mk x m n ip i o susp halt b e c => cases susp <;> cases halt <;> rfl

@[simp] theorem haltWhenSuspending_xlen (s : State) : (haltWhenSuspending s).xlen = s.xlen := by
  rw [haltWhenSuspending_eq]
@[simp] theorem haltWhenSuspending_mem (s : State) : (haltWhenSuspending s).mem = s.mem := by
  rw [haltWhenSuspending_eq]
@[simp] theorem haltWhenSuspending_n (s : State) : (haltWhenSuspending s).n = s.n := by
  rw [haltWhenSuspending_eq]
@[simp] theorem haltWhenSuspending_ip (s : State) : (haltWhenSuspending s).ip = s.ip := by
  rw [haltWhenSuspending_eq]
@[simp] theorem haltWhenSuspending_inq (s : State) : (haltWhenSuspending s).inq = s.inq := by
  rw [haltWhenSuspending_eq]
@[simp] theorem haltWhenSuspending_outq (s : State) : (haltWhenSuspending s).outq = s.outq := by
  rw [haltWhenSuspending_eq]
@[simp] theorem haltWhenSuspending_susp (s : State) : (haltWhenSuspending s).susp = s.susp := by
  rw [haltWhenSuspending_eq]
@[simp] theorem haltWhenSuspending_halt (s : State) : (haltWhenSuspending s).halt = (s.halt || s.susp) := by
  rw [haltWhenSuspending_eq]
@[simp] theorem haltWhenSuspending_busy (s : State) : (haltWhenSuspending s).busy = s.busy := by
  rw [haltWhenSuspending_eq]
@[simp] theorem haltWhenSuspending_err (s : State) : (haltWhenSuspending s).err = s.err := by
  rw [haltWhenSuspending_eq]
@[simp] theorem haltWhenSuspending_stop (s : State) : (haltWhenSuspending s).stop = s.stop := by
  rw [haltWhenSuspending_eq]

end Sys2Proof.Machine
end

