-- ==== Sys2Proof/Laws/Ops.lean ====
section
/-! SUPPORT. Laws/Ops.lean: one lemma per shared operation saying everything it can do. -/

namespace Sys2Proof.Machine

theorem inBounds_iff (s : State) (a : Int) : inBounds s a = true ↔ HasCell s a := by
  simp [inBounds, HasCell]

theorem takeFault_eq (e : FaultRecord) (s : State) : takeFault e s = withFault e s := rfl

@[simp] theorem finish_ok (s t : State) : finish s (.ok t) = .next t := rfl

@[simp] theorem finish_error (s : State) (e : FaultRecord) : finish s (.error e) = .next (takeFault e s) := rfl

/-- The end of the execute phase answers a next state: the one computed, or the fault taken. -/
theorem finish_cases {s t : State} {r : Except FaultRecord State} (h : finish s r = .next t) :
    r = .ok t ∨ ∃ e, r = .error e ∧ t = takeFault e s := by
  cases r with
  | ok u => exact .inl (by cases h; rfl)
  | error e => exact .inr ⟨e, rfl, by cases h; rfl⟩

/-! ### The operand resolver -/

theorem readOperand_ok {s : State} {o : Operand} (h : Readable s o) : readOperand s o = .ok (valueIn s o) := by
  obtain ⟨m, p⟩ := o
  cases m with
  | immediate => rfl
  | positional => exact if_pos ((inBounds_iff s p).2 (h rfl))

theorem readOperand_error {s : State} {o : Operand} (h : ¬ Readable s o) :
    readOperand s o = .error (.outOfBounds o.word s.ip) := by
  obtain ⟨m, p⟩ := o
  cases m with
  | immediate => exact absurd (fun e => nomatch e) h
  | positional => exact if_neg (fun hb => h (fun _ => (inBounds_iff s p).1 hb))

/-- `read(i)` answers the operand's value if it is readable, else its fault. -/
theorem readOperand_cases (s : State) (o : Operand) :
    (Readable s o ∧ readOperand s o = .ok (valueIn s o)) ∨
      (¬ Readable s o ∧ readOperand s o = .error (.outOfBounds o.word s.ip)) := by
  by_cases h : Readable s o
  · exact .inl ⟨h, readOperand_ok h⟩
  · exact .inr ⟨h, readOperand_error h⟩

theorem writeAddr_ok {s : State} {p : Word} (h : HasCell s p) : writeAddr s p = .ok p.toNat :=
  if_pos ((inBounds_iff s p).2 h)

theorem writeAddr_error {s : State} {p : Word} (h : ¬ HasCell s p) : writeAddr s p = .error (.outOfBounds p s.ip) :=
  if_neg (fun hb => h ((inBounds_iff s p).1 hb))

/-- `waddr(i)` answers the address if the cell exists, else its fault. -/
theorem writeAddr_cases (s : State) (p : Word) :
    (HasCell s p ∧ writeAddr s p = .ok p.toNat) ∨
      (¬ HasCell s p ∧ writeAddr s p = .error (.outOfBounds p s.ip)) := by
  by_cases h : HasCell s p
  · exact .inl ⟨h, writeAddr_ok h⟩
  · exact .inr ⟨h, writeAddr_error h⟩

/-! ### The operand shapes -/

/-- A format `RRW` instruction whose operands are all there comes down to its result. -/
theorem binary_eq {f : Word → Word → Except FaultRecord Word} {a b : Operand} {dst : Word} {s : State}
    (ha : Readable s a) (hb : Readable s b) (hd : HasCell s dst) :
    binary f a b dst s = match f (valueIn s a) (valueIn s b) with
      | .error e => .error e
      | .ok r => .ok (advance (storeWord s dst.toNat r) 4) := by
  cases e : f (valueIn s a) (valueIn s b) <;>
    simp only [binary, readOperand_ok ha, readOperand_ok hb, writeAddr_ok hd, e]

/-- What a format `RRW` instruction can do: store one result, or fault, on an operand or in its result. -/
theorem binary_cases (f : Word → Word → Except FaultRecord Word) (a b : Operand) (dst : Word) (s : State) :
    (∃ r, f (valueIn s a) (valueIn s b) = .ok r ∧ HasCell s dst ∧
      binary f a b dst s = .ok (advance (storeWord s dst.toNat r) 4)) ∨
    (∃ e, f (valueIn s a) (valueIn s b) = .error e ∧ binary f a b dst s = .error e) ∨
    (∃ p, (p = a.word ∨ p = b.word ∨ p = dst) ∧ binary f a b dst s = .error (.outOfBounds p s.ip)) := by
  rcases readOperand_cases s a with ⟨ha, ea⟩ | ⟨ha, ea⟩
  · rcases readOperand_cases s b with ⟨hb, eb⟩ | ⟨hb, eb⟩
    · rcases writeAddr_cases s dst with ⟨hd, ed⟩ | ⟨hd, ed⟩
      · rw [binary_eq ha hb hd]
        cases f (valueIn s a) (valueIn s b) with
        | ok r => exact .inl ⟨r, rfl, hd, rfl⟩
        | error e => exact .inr (.inl ⟨e, rfl, rfl⟩)
      · exact .inr (.inr ⟨dst, .inr (.inr rfl), by simp only [binary, ea, eb, ed]⟩)
    · exact .inr (.inr ⟨b.word, .inr (.inl rfl), by simp only [binary, ea, eb]⟩)
  · exact .inr (.inr ⟨a.word, .inl rfl, by simp only [binary, ea]⟩)

theorem jumpTo_nonneg {s : State} {t : Word} (h : 0 ≤ t) : jumpTo s t = .ok (setIp s t.toNat) :=
  if_neg (Int.not_lt.mpr h)

theorem jumpTo_neg {s : State} {t : Word} (h : t < 0) : jumpTo s t = .error (.outOfBounds t s.ip) := if_pos h

/-- What a format `RR` instruction can do: fall through, jump to the value of its target, or fault on an operand or on a
negative target. -/
theorem jumpWhen_cases (taken : Word → Bool) (cond target : Operand) (s : State) :
    (Readable s cond ∧ taken (valueIn s cond) = false ∧ jumpWhen taken cond target s = .ok (advance s 3)) ∨
    (Readable s cond ∧ taken (valueIn s cond) = true ∧ Readable s target ∧ 0 ≤ valueIn s target ∧
      jumpWhen taken cond target s = .ok (setIp s (valueIn s target).toNat)) ∨
    (∃ p, (p = cond.word ∨ p = target.word ∨ p = valueIn s target) ∧
      jumpWhen taken cond target s = .error (.outOfBounds p s.ip)) := by
  rcases readOperand_cases s cond with ⟨hc, ec⟩ | ⟨hc, ec⟩
  · cases ht : taken (valueIn s cond) with
    | false => exact .inl ⟨hc, rfl, by simp [jumpWhen, ec, ht]⟩
    | true =>
      rcases readOperand_cases s target with ⟨hg, eg⟩ | ⟨hg, eg⟩
      · by_cases hn : valueIn s target < 0
        · exact .inr (.inr ⟨_, .inr (.inr rfl), by simp [jumpWhen, ec, ht, eg, jumpTo_neg hn]⟩)
        · have hn : 0 ≤ valueIn s target := Int.not_lt.mp hn
          exact .inr (.inl ⟨hc, rfl, hg, hn, by simp [jumpWhen, ec, ht, eg, jumpTo_nonneg hn]⟩)
      · exact .inr (.inr ⟨_, .inr (.inl rfl), by simp [jumpWhen, ec, ht, eg]⟩)
  · exact .inr (.inr ⟨_, .inl rfl, by simp [jumpWhen, ec]⟩)

/-- What `IN` can do. -/
theorem input_cases (dst : Word) (s : State) :
    (∃ v q, s.inq = v :: q ∧ HasCell s dst ∧
      input dst s = .ok (advance (storeWord (setInq s q) dst.toNat v) 2)) ∨
    (s.inq = [] ∧ HasCell s dst ∧ input dst s = .error (.starvedInput s.ip)) ∨
    (¬ HasCell s dst ∧ input dst s = .error (.outOfBounds dst s.ip)) := by
  rcases writeAddr_cases s dst with ⟨hd, ed⟩ | ⟨hd, ed⟩
  · cases hq : s.inq with
    | nil => exact .inr (.inl ⟨rfl, hd, by simp only [input, ed, hq]⟩)
    | cons v q => exact .inl ⟨v, q, rfl, hd, by simp only [input, ed, hq]⟩
  · exact .inr (.inr ⟨hd, by simp only [input, ed]⟩)

/-- What `OUT` can do. -/
theorem output_cases (a : Operand) (s : State) :
    (Readable s a ∧ output a s = .ok (haltWhenSuspending (advance (pushOutq s (valueIn s a)) 2))) ∨
    (¬ Readable s a ∧ output a s = .error (.outOfBounds a.word s.ip)) := by
  rcases readOperand_cases s a with ⟨ha, ea⟩ | ⟨ha, ea⟩
  · exact .inl ⟨ha, by simp only [output, ea]⟩
  · exact .inr ⟨ha, by simp only [output, ea]⟩

theorem narrow_ok {s : State} {r : Int} (h : s.xlen.holds r = true) : narrow s r = .ok r := if_pos h

theorem narrow_error {s : State} {r : Int} (h : s.xlen.holds r = false) : narrow s r = .error (.overflow s.ip) :=
  if_neg (by simp [h])

/-! ### The loop's test -/

@[simp] theorem loopTest_running {i : Instr} {t : State} (h : t.halt = false) : loopTest i t = t := by
  unfold loopTest
  rw [h]

/-! ### The end of a run whose loop is left before a step -/

theorem leavingCause_fault {s : State} (h : s.err ≠ none) : leavingCause s = .fault := by
  unfold leavingCause
  split <;> simp_all

/-- Without a fault the cause is `Halt` or, only under `SUSP = 1`, `Suspend`. -/
theorem leavingCause_flag {s : State} (h : s.err = none) :
    leavingCause s = .halt ∨ (leavingCause s = .suspend ∧ s.susp = true) := by
  unfold leavingCause
  split
  · simp_all
  · exact .inl rfl
  · split
    · exact .inl rfl
    · exact .inr ⟨rfl, by assumption⟩
  · exact .inr ⟨rfl, by assumption⟩

/-- With no `HLT` at `IP` it was an `OUT` that set the flag (R141). -/
theorem leavingCause_suspend {s : State} (h : s.err = none) (hs : s.susp = true)
    (hd : ∀ rest, decode (fetchWords s) ≠ .instr .hlt rest) : leavingCause s = .suspend := by
  unfold leavingCause
  split
  · simp_all
  · simp_all
  · exact absurd (by assumption) (hd _)
  · rfl

end Sys2Proof.Machine
end

