-- ==== Sys2Proof/Laws/PerInstr.lean ====
section
/-! SUPPORT. Laws/PerInstr.lean: statements about every instruction as syntax, one lemma per constructor. -/

namespace Sys2Proof

/-- A canonical encoding occupies the instruction's length, 1 to 4 Words (spec/30_encoding.md R60), has one role per
parameter (R64), and is Words of any machine for which the instruction is well-formed (R9). -/
def Laws.EncodedForm.Statement (i : Instr) : Prop :=
  (encode i).length = i.length ∧ 1 ≤ i.length ∧ i.length ≤ 4 ∧ i.params.length = i.format.roles.length ∧
    i.modes.length = i.format.roles.length ∧ ∀ x : Xlen, i.wf x = true → ∀ v ∈ encode i, x.holds v = true

theorem Mode.digit_bounds (m : Mode) : 0 ≤ m.digit ∧ m.digit ≤ 1 := by cases m <;> decide

/-- The canonical instruction Word is a small nonnegative number, so it is a Word whatever `XLEN` is (R6, R71). -/
theorem Instr.holds_word (x : Xlen) (i : Instr) : x.holds i.word = true := by
  have h : 0 ≤ i.word ∧ i.word ≤ 11199 := by
    cases i with
    | add a b _ | mul a b _ | lt a b _ | eq a b _ =>
      have ha := a.mode.digit_bounds
      have hb := b.mode.digit_bounds
      have hp : Mode.positional.digit = 0 := rfl
      simp only [Instr.word, Instr.opcode, Instr.modes, modesNumber] at *
      omega
    | jt a b | jf a b =>
      have ha := a.mode.digit_bounds
      have hb := b.mode.digit_bounds
      simp only [Instr.word, Instr.opcode, Instr.modes, modesNumber] at *
      omega
    | output a =>
      have ha := a.mode.digit_bounds
      simp only [Instr.word, Instr.opcode, Instr.modes, modesNumber] at *
      omega
    | input _ | hlt => simp [Instr.word, Instr.opcode, Instr.modes, modesNumber, Mode.digit]
  unfold Xlen.holds
  simp only [Bool.or_eq_true, Bool.and_eq_true, decide_eq_true_eq]
  exact .inl ⟨Int.le_trans (by decide) h.1, Int.le_trans h.2 (by decide)⟩

theorem Laws.EncodedForm.add (a b : Operand) (dst : Word) : Laws.EncodedForm.Statement (.add a b dst) :=
  ⟨rfl, Nat.le_of_ble_eq_true rfl, Nat.le_of_ble_eq_true rfl, rfl, rfl, fun x h v hv => by
    simp [encode, Instr.params, Instr.wf, Operand.wf] at h hv
    rcases hv with rfl | rfl | rfl | rfl <;> simp [Instr.holds_word, h]⟩

theorem Laws.EncodedForm.mul (a b : Operand) (dst : Word) : Laws.EncodedForm.Statement (.mul a b dst) :=
  ⟨rfl, Nat.le_of_ble_eq_true rfl, Nat.le_of_ble_eq_true rfl, rfl, rfl, fun x h v hv => by
    simp [encode, Instr.params, Instr.wf, Operand.wf] at h hv
    rcases hv with rfl | rfl | rfl | rfl <;> simp [Instr.holds_word, h]⟩

theorem Laws.EncodedForm.input (dst : Word) : Laws.EncodedForm.Statement (.input dst) :=
  ⟨rfl, Nat.le_of_ble_eq_true rfl, Nat.le_of_ble_eq_true rfl, rfl, rfl, fun x h v hv => by
    simp [encode, Instr.params, Instr.wf] at h hv
    rcases hv with rfl | rfl <;> simp [Instr.holds_word, h]⟩

theorem Laws.EncodedForm.output (a : Operand) : Laws.EncodedForm.Statement (.output a) :=
  ⟨rfl, Nat.le_of_ble_eq_true rfl, Nat.le_of_ble_eq_true rfl, rfl, rfl, fun x h v hv => by
    simp [encode, Instr.params, Instr.wf, Operand.wf] at h hv
    rcases hv with rfl | rfl <;> simp [Instr.holds_word, h]⟩

theorem Laws.EncodedForm.jt (cond target : Operand) : Laws.EncodedForm.Statement (.jt cond target) :=
  ⟨rfl, Nat.le_of_ble_eq_true rfl, Nat.le_of_ble_eq_true rfl, rfl, rfl, fun x h v hv => by
    simp [encode, Instr.params, Instr.wf, Operand.wf] at h hv
    rcases hv with rfl | rfl | rfl <;> simp [Instr.holds_word, h]⟩

theorem Laws.EncodedForm.jf (cond target : Operand) : Laws.EncodedForm.Statement (.jf cond target) :=
  ⟨rfl, Nat.le_of_ble_eq_true rfl, Nat.le_of_ble_eq_true rfl, rfl, rfl, fun x h v hv => by
    simp [encode, Instr.params, Instr.wf, Operand.wf] at h hv
    rcases hv with rfl | rfl | rfl <;> simp [Instr.holds_word, h]⟩

theorem Laws.EncodedForm.lt (a b : Operand) (dst : Word) : Laws.EncodedForm.Statement (.lt a b dst) :=
  ⟨rfl, Nat.le_of_ble_eq_true rfl, Nat.le_of_ble_eq_true rfl, rfl, rfl, fun x h v hv => by
    simp [encode, Instr.params, Instr.wf, Operand.wf] at h hv
    rcases hv with rfl | rfl | rfl | rfl <;> simp [Instr.holds_word, h]⟩

theorem Laws.EncodedForm.eq (a b : Operand) (dst : Word) : Laws.EncodedForm.Statement (.eq a b dst) :=
  ⟨rfl, Nat.le_of_ble_eq_true rfl, Nat.le_of_ble_eq_true rfl, rfl, rfl, fun x h v hv => by
    simp [encode, Instr.params, Instr.wf, Operand.wf] at h hv
    rcases hv with rfl | rfl | rfl | rfl <;> simp [Instr.holds_word, h]⟩

theorem Laws.EncodedForm.hlt : Laws.EncodedForm.Statement .hlt :=
  ⟨rfl, Nat.le_of_ble_eq_true rfl, Nat.le_of_ble_eq_true rfl, rfl, rfl, fun x _ v hv => by
    simp [encode, Instr.params] at hv
    simp [hv, Instr.holds_word]⟩

end Sys2Proof
end

