-- ==== Sys2Proof/Laws/Step.lean ====
section
/-! SUPPORT. Laws/Step.lean: everything an instruction, and a step, can do, said once. -/

namespace Sys2Proof.Machine

/-- The effect of an instruction that completes (R91): one Word stored and `IP` advanced by 4; the head of `INQ` stored;
a value appended to `OUTQ`; a fall through or a jump; or `HALT` set. -/
def Committed (i : Instr) (s t : State) : Prop :=
  (∃ dst r, destination i = some dst ∧ ipAdvance i = 4 ∧ HasCell s dst ∧ s.xlen.holds r = true ∧
    t = advance (storeWord s dst.toNat r) 4) ∨
  (∃ dst v q, i = .input dst ∧ s.inq = v :: q ∧ HasCell s dst ∧
    t = advance (storeWord (setInq s q) dst.toNat v) 2) ∨
  (∃ a, i = .output a ∧ Readable s a ∧ t = haltWhenSuspending (advance (pushOutq s (valueIn s a)) 2)) ∨
  (∃ target, jumpTarget i = some target ∧ ipAdvance i = 3 ∧ destination i = none ∧
    (t = advance s 3 ∨ (Readable s target ∧ 0 ≤ valueIn s target ∧ t = setIp s (valueIn s target).toNat))) ∨
  (i = .hlt ∧ t = setHalt s)

/-- The address or Word that a fault record of the execute phase names comes from the instruction or from the operand it
reads. -/
def FaultOf (i : Instr) (s : State) (e : FaultRecord) : Prop :=
  e = .starvedInput s.ip ∨ e = .overflow s.ip ∨
    ∃ p, e = .outOfBounds p s.ip ∧ (p ∈ i.params ∨ ∃ target, jumpTarget i = some target ∧ p = valueIn s target)

theorem binary_committed {f : Word → Word → Except FaultRecord Word} {a b : Operand} {dst : Word} {s t : State}
    {i : Instr} (hf : ∀ va vb e, f va vb = .error e → e = .overflow s.ip)
    (hr : ∀ va vb r, f va vb = .ok r → s.xlen.holds r = true) (hd : destination i = some dst)
    (hk : ipAdvance i = 4) (hp : i.params = [a.word, b.word, dst]) (h : finish s (binary f a b dst s) = .next t) :
    Committed i s t ∨ ∃ e, FaultOf i s e ∧ t = takeFault e s := by
  rcases binary_cases f a b dst s with ⟨r, er, hc, eq⟩ | ⟨e, he, eq⟩ | ⟨p, pp, eq⟩ <;> rw [eq] at h <;> cases h
  · exact .inl (.inl ⟨dst, r, hd, hk, hc, hr _ _ _ er, rfl⟩)
  · exact .inr ⟨e, .inr (.inl (hf _ _ _ he)), rfl⟩
  · exact .inr ⟨_, .inr (.inr ⟨p, rfl, .inl (by simpa [hp] using pp)⟩), rfl⟩

theorem jumpWhen_committed {taken : Word → Bool} {cond target : Operand} {s t : State} {i : Instr}
    (ht : jumpTarget i = some target) (hk : ipAdvance i = 3) (hd : destination i = none)
    (hp : i.params = [cond.word, target.word]) (h : finish s (jumpWhen taken cond target s) = .next t) :
    Committed i s t ∨ ∃ e, FaultOf i s e ∧ t = takeFault e s := by
  rcases jumpWhen_cases taken cond target s with ⟨-, -, eq⟩ | ⟨-, -, hr, h0, eq⟩ | ⟨p, pp, eq⟩ <;> rw [eq] at h <;>
    cases h
  · exact .inl (.inr (.inr (.inr (.inl ⟨target, ht, hk, hd, .inl rfl⟩))))
  · exact .inl (.inr (.inr (.inr (.inl ⟨target, ht, hk, hd, .inr ⟨hr, h0, rfl⟩⟩))))
  · refine .inr ⟨_, .inr (.inr ⟨p, rfl, ?_⟩), rfl⟩
    rcases pp with rfl | rfl | rfl
    · exact .inl (by simp [hp])
    · exact .inl (by simp [hp])
    · exact .inr ⟨target, ht, rfl⟩

theorem narrow_range {s : State} {x : Int} {r : Word} (h : narrow s x = .ok r) : s.xlen.holds r = true := by
  unfold narrow at h
  split at h <;> cases h
  assumption

theorem narrow_fault {s : State} {x : Int} {e : FaultRecord} (h : narrow s x = .error e) : e = .overflow s.ip := by
  unfold narrow at h
  split at h <;> cases h
  rfl

theorem holds_truthWord (x : Xlen) (p : Bool) : x.holds (truthWord p) = true := by
  cases p <;> simp [truthWord, Xlen.holds]

/-- Everything an instruction can do: complete with its effect, or take a fault that names its pointer. -/
theorem exec_cases {i : Instr} {s t : State} (h : exec i s = .next t) :
    Committed i s t ∨ ∃ e, FaultOf i s e ∧ t = takeFault e s := by
  cases i with
  | add a b dst =>
    exact binary_committed (fun _ _ _ => narrow_fault) (fun _ _ _ => narrow_range) rfl rfl rfl h
  | mul a b dst =>
    exact binary_committed (fun _ _ _ => narrow_fault) (fun _ _ _ => narrow_range) rfl rfl rfl h
  | lt a b dst =>
    exact binary_committed (fun _ _ _ e => by cases e)
      (fun _ _ _ e => by injection e with e; rw [← e]; exact holds_truthWord _ _) rfl rfl rfl h
  | eq a b dst =>
    exact binary_committed (fun _ _ _ e => by cases e)
      (fun _ _ _ e => by injection e with e; rw [← e]; exact holds_truthWord _ _) rfl rfl rfl h
  | jt cond target => exact jumpWhen_committed rfl rfl rfl rfl h
  | jf cond target => exact jumpWhen_committed rfl rfl rfl rfl h
  | input dst =>
    simp only [exec, execIn] at h
    rcases input_cases dst s with ⟨v, q, hq, hd, eq⟩ | ⟨-, -, eq⟩ | ⟨-, eq⟩ <;> rw [eq] at h <;> cases h
    · exact .inl (.inr (.inl ⟨dst, v, q, rfl, hq, hd, rfl⟩))
    · exact .inr ⟨_, .inl rfl, rfl⟩
    · exact .inr ⟨_, .inr (.inr ⟨dst, rfl, .inl (by simp [Instr.params])⟩), rfl⟩
  | output a =>
    simp only [exec, execOut] at h
    rcases output_cases a s with ⟨ha, eq⟩ | ⟨-, eq⟩ <;> rw [eq] at h <;> cases h
    · exact .inl (.inr (.inr (.inl ⟨a, rfl, ha, rfl⟩)))
    · exact .inr ⟨_, .inr (.inr ⟨a.word, rfl, .inl (by simp [Instr.params])⟩), rfl⟩
  | hlt =>
    cases h
    exact .inl (.inr (.inr (.inr (.inr ⟨rfl, rfl⟩))))

theorem FaultOf_ip {i : Instr} {s : State} {e : FaultRecord} (h : FaultOf i s e) : e.ip = s.ip := by
  rcases h with rfl | rfl | ⟨p, rfl, -⟩ <;> rfl

/-- What a step that answers a next state can have done: waited, taken a fault of the decode phase, executed the decoded
instruction and then tested `HALT`, or left the run loop before a step. -/
theorem step_cases {s t : State} (h : step s = .next t) :
    (s.busy = false ∧ t = s) ∨
    (InRun s ∧ ∃ r, decode (fetchWords s) = .reject r ∧ t = takeFault (rejectRecord s r) s) ∨
    (InRun s ∧ ∃ i rest u, decode (fetchWords s) = .instr i rest ∧ exec i s = .next u ∧ t = loopTest i u) ∨
    (s.busy = true ∧ ¬ InRun s ∧ t = endRun (leavingCause s) s) := by
  unfold step at h
  split at h
  · exact .inl ⟨‹_›, by cases h; rfl⟩
  · rename_i hb hh he
    split at h
    · rename_i r hr
      exact .inr (.inl ⟨⟨hb, hh, he⟩, r, hr, by cases h; rfl⟩)
    · rename_i i rest hi
      split at h
      · rename_i u hu
        exact .inr (.inr (.inl ⟨⟨hb, hh, he⟩, i, rest, u, hi, hu, by cases h; rfl⟩))
      · cases h
      · cases h
  · rename_i hb hno
    exact .inr (.inr (.inr ⟨hb, fun hr => hno hr.2.1 hr.2.2, by cases h; rfl⟩))

end Sys2Proof.Machine
end

