-- ==== Sys2Proof/Laws/Run.lean ====
section
/-! SUPPORT. Laws/Run.lean: the run loop, one step at a time, and its induction packaged once. -/

namespace Sys2Proof.Machine

/-- An idle machine runs no further, whatever the bound. -/
@[simp] theorem runLoop_idle {s : State} (h : s.busy = false) (fuel : Nat) : runLoop fuel s = some s := by
  cases fuel <;> simp [runLoop, h]

theorem runLoop_zero {s : State} (h : s.busy = true) : runLoop 0 s = none := by
  simp [runLoop, h]

/-- Inside a run the loop takes a step. -/
theorem runLoop_succ {s t : State} (h : s.busy = true) (e : step s = .next t) (fuel : Nat) :
    runLoop (fuel + 1) s = runLoop fuel t := by
  simp [runLoop, h, e]

/-- A run that is over: the machine was idle, or the first step answered a next state and the rest of the run is over
within the remaining bound. -/
theorem runLoop_cases {fuel : Nat} {s u : State} (h : runLoop fuel s = some u) :
    (s.busy = false ∧ u = s) ∨
      ∃ k t, fuel = k + 1 ∧ s.busy = true ∧ step s = .next t ∧ runLoop k t = some u := by
  cases hb : s.busy with
  | false =>
    rw [runLoop_idle hb] at h
    exact .inl ⟨rfl, (Option.some.inj h).symm⟩
  | true =>
    cases fuel with
    | zero =>
      rw [runLoop_zero hb] at h
      cases h
    | succ k =>
      cases e : step s with
      | next t => exact .inr ⟨k, t, rfl, rfl, rfl, by simpa [runLoop, hb, e] using h⟩
      | fault f => simp [runLoop, hb, e] at h
      | refused r => simp [runLoop, hb, e] at h

/-- A run that is over leaves the machine idle. -/
theorem runLoop_notBusy {fuel : Nat} {s u : State} (h : runLoop fuel s = some u) : u.busy = false := by
  induction fuel generalizing s with
  | zero =>
    rcases runLoop_cases h with ⟨hb, rfl⟩ | ⟨k, t, hk, -⟩
    · exact hb
    · exact absurd hk (by omega)
  | succ k ih =>
    rcases runLoop_cases h with ⟨hb, rfl⟩ | ⟨k', t, hk, -, -, h'⟩
    · exact hb
    · cases hk
      exact ih h'

/-- What every step keeps of a relation to the start, a run keeps: the induction over the steps of a run. -/
theorem runLoop_induction {R : State → State → Prop} (refl : ∀ s, R s s)
    (stepR : ∀ s t u, s.busy = true → step s = .next t → R t u → R s u) {fuel : Nat} {s u : State}
    (h : runLoop fuel s = some u) : R s u := by
  induction fuel generalizing s with
  | zero =>
    rcases runLoop_cases h with ⟨-, rfl⟩ | ⟨k, t, hk, -⟩
    · exact refl _
    · exact absurd hk (by omega)
  | succ k ih =>
    rcases runLoop_cases h with ⟨-, rfl⟩ | ⟨k', t, hk, hb, e, h'⟩
    · exact refl _
    · cases hk
      exact stepR s t u hb e (ih h')

/-- The loop's test writes `STOP`, `HALT` and `BUSY` only (R152). -/
theorem loopTest_keeps (i : Instr) (t : State) :
    (loopTest i t).mem = t.mem ∧ (loopTest i t).n = t.n ∧ (loopTest i t).ip = t.ip ∧ (loopTest i t).inq = t.inq ∧
      (loopTest i t).outq = t.outq ∧ (loopTest i t).susp = t.susp ∧ (loopTest i t).err = t.err := by
  unfold loopTest
  split <;> simp

/-- What one step of a run leaves: a run still going on, with at most one more output and that only under `SUSP = 0`; or
a run that is over, by a halt, a fault or a suspension. -/
theorem step_inRun {s t : State} (hr : InRun s) (h : step s = .next t) :
    (InRun t ∧ t.stop = s.stop ∧ t.susp = s.susp ∧
      (t.outq = s.outq ∨ (s.susp = false ∧ ∃ v, t.outq = s.outq ++ [v]))) ∨
    (t.busy = false ∧ t.halt = false ∧
      ((t.stop = .halt ∧ t.err = none ∧ t.outq = s.outq) ∨ (t.stop = .fault ∧ t.err ≠ none ∧ t.outq = s.outq) ∨
        (t.stop = .suspend ∧ s.susp = true ∧ t.err = none ∧ ∃ v, t.outq = s.outq ++ [v]))) := by
  rcases step_cases h with ⟨hb, rfl⟩ | ⟨_, r, -, rfl⟩ | ⟨_, i, rest, u, -, hu, rfl⟩ | ⟨_, hn, _⟩
  · rw [hr.1] at hb
    cases hb
  · exact .inr ⟨rfl, hr.2.1, .inr (.inl ⟨rfl, by simp, rfl⟩)⟩
  · rcases exec_cases hu with (⟨d, r, -, -, -, -, rfl⟩ | ⟨d, v, q, rfl, -, -, rfl⟩ | ⟨o, rfl, -, rfl⟩ |
        ⟨tg, -, -, -, (rfl | ⟨-, -, rfl⟩)⟩ | ⟨rfl, rfl⟩) | ⟨e, -, rfl⟩
    · rw [loopTest_running (by simpa using hr.2.1)]
      exact .inl ⟨hr, rfl, rfl, .inl rfl⟩
    · rw [loopTest_running (by simpa using hr.2.1)]
      exact .inl ⟨hr, rfl, rfl, .inl rfl⟩
    · cases hs : s.susp with
      | false =>
        rw [loopTest_running (by simp [hr.2.1, hs])]
        exact .inl ⟨⟨by simpa using hr.1, by simp [hr.2.1, hs], by simpa using hr.2.2⟩, by simp, by simp [hs],
          .inr ⟨rfl, _, by simp; rfl⟩⟩
      | true =>
        have e : loopTest (.output o) (haltWhenSuspending (advance (pushOutq s (valueIn s o)) 2)) =
            endRun .suspend (haltWhenSuspending (advance (pushOutq s (valueIn s o)) 2)) := by
          simp [loopTest, hs, haltCause]
        rw [e]
        exact .inr ⟨rfl, rfl, .inr (.inr ⟨rfl, rfl, by simp [hr.2.2], _, by simp; rfl⟩)⟩
    · rw [loopTest_running (by simpa using hr.2.1)]
      exact .inl ⟨hr, rfl, rfl, .inl rfl⟩
    · rw [loopTest_running (by simpa using hr.2.1)]
      exact .inl ⟨hr, rfl, rfl, .inl rfl⟩
    · exact .inr ⟨rfl, rfl, .inl ⟨rfl, hr.2.2, rfl⟩⟩
    · rw [loopTest_running (by simpa using hr.2.1)]
      exact .inr ⟨rfl, hr.2.1, .inr (.inl ⟨rfl, by simp, rfl⟩)⟩
  · exact absurd hr hn

end Sys2Proof.Machine
end

