-- ==== Sys2Proof/Laws/Word.lean ====
section
/-! SUPPORT. Laws/Word.lean: the range check says `WMIN <= v <= WMAX` (spec/00_scope.md R6, R9). -/

namespace Sys2Proof

/-- Every legal `XLEN` has at least 32 bits (R6). -/
theorem two_pow_31_le (k : Nat) : 2147483648 ≤ Nat.pow 2 (31 + k) := by
  have h : (2 : Nat) ^ 31 ≤ 2 ^ (31 + k) := Nat.pow_le_pow_right (by decide) (by omega)
  simpa using h

/-- The 32-bit disjunct of `Xlen.holds` is contained in the range proper. -/
theorem holds_eq_range (x : Xlen) (v : Int) : x.holds v = (aboveMin v x.wmin && belowMax v x.wmax) := by
  cases x with
  | inf => simp [Xlen.holds, Xlen.wmin, Xlen.wmax, aboveMin, belowMax]
  | finite k =>
    have h := two_pow_31_le k
    simp only [Xlen.holds, Xlen.wmin, Xlen.wmax, aboveMin, belowMax, Int.ofNat_eq_natCast]
    rw [Bool.eq_iff_iff]
    simp only [Bool.or_eq_true, Bool.and_eq_true, decide_eq_true_eq]
    omega

/-- R9 for a finite width. -/
theorem holds_finite (k : Nat) (v : Int) :
    (Xlen.finite k).holds v = true ↔ -(Nat.pow 2 (31 + k) : Int) ≤ v ∧ v ≤ (Nat.pow 2 (31 + k) : Int) - 1 := by
  simp [holds_eq_range, Xlen.wmin, Xlen.wmax, aboveMin, belowMax]

/-- With `XLEN = inf` every integer is a Word (R6). -/
@[simp] theorem holds_inf (v : Int) : Xlen.inf.holds v = true := by
  simp [holds_eq_range, Xlen.wmin, Xlen.wmax, aboveMin, belowMax]

/-- What 32 bits hold, every width holds (R6). -/
theorem holds_of_32 (x : Xlen) (v : Int) (lo : -2147483648 ≤ v) (hi : v ≤ 2147483647) : x.holds v = true := by
  simp [Xlen.holds, lo, hi]

/-- The Word range has no gaps. -/
theorem holds_between (x : Xlen) {a v b : Int} (ha : x.holds a = true) (hb : x.holds b = true) (av : a ≤ v)
    (vb : v ≤ b) : x.holds v = true := by
  cases x with
  | inf => simp
  | finite k => rw [holds_finite] at *; omega

end Sys2Proof
end

