-- ==== Sys2Proof/Tests/Slice0.lean ====
section
/-! SUPPORT. Tests/Slice0.lean: the model's own tests. Every expected value is from spec/95_test_vectors.md (its ids stand
in the names and comments) or worked out by hand from the rule named; then one witness per obligation that has
hypotheses, clause by clause. -/

namespace Sys2Proof.Tests
open Sys2Proof.Machine

/-! ### Helpers -/

/-- `XLEN = 32`. -/
abbrev x32 : Xlen := .finite 0

/-- A machine of width `x` in a run: loaded with `image`, `INQ` as given, `RUN` accepted. -/
def running (x : Xlen) (image inq : List Word) (susp : Bool) : State :=
  startRun (setInq (construct x image susp) inq)

/-- `XLEN = 32`, no suspension, empty `INQ`. -/
def start (image : List Word) : State := running x32 image [] false

/-- The fields a test looks at. -/
structure Seen where
  mem : List Word
  ip : Nat
  inq : List Word
  outq : List Word
  halt : Bool
  err : Option FaultRecord
deriving DecidableEq

/-- What is visible after an outcome: `MEM`, `IP`, `INQ`, `OUTQ`, `HALT`, `ERR`. -/
def seen : Result → Option Seen
  | .next t => some ⟨t.mem.window t.n 0 t.n, t.ip, t.inq, t.outq, t.halt, t.err⟩
  | .fault _ => none
  | .refused _ => none

/-- The state after an outcome. -/
def nextOf : Result → Option State
  | .next t => some t
  | .fault _ => none
  | .refused _ => none

/-- The instruction decoded from a list of Words. -/
def instrOf : Decoded → Option Instr
  | .instr i _ => some i
  | .reject _ => none

/-! ### Syntax and well-formedness: an ill-formed term for each check -/

/-- 2147483648 = `2^31` is no Word at `XLEN = 32` (R6, R9). -/
abbrev big : Word := 2147483648

theorem test_wf_read_operands : ∀ i ∈ ([
    .add ⟨.immediate, big⟩ ⟨.immediate, 0⟩ 0, .add ⟨.immediate, 0⟩ ⟨.positional, big⟩ 0,
    .mul ⟨.immediate, big⟩ ⟨.immediate, 0⟩ 0, .mul ⟨.immediate, 0⟩ ⟨.positional, big⟩ 0,
    .lt ⟨.immediate, big⟩ ⟨.immediate, 0⟩ 0, .lt ⟨.immediate, 0⟩ ⟨.positional, big⟩ 0,
    .eq ⟨.immediate, big⟩ ⟨.immediate, 0⟩ 0, .eq ⟨.immediate, 0⟩ ⟨.positional, big⟩ 0] : List Instr),
    i.wf x32 = false := by decide

theorem test_wf_destinations : ∀ i ∈ ([
    .add ⟨.immediate, 0⟩ ⟨.immediate, 0⟩ big, .mul ⟨.immediate, 0⟩ ⟨.immediate, 0⟩ big,
    .lt ⟨.immediate, 0⟩ ⟨.immediate, 0⟩ big, .eq ⟨.immediate, 0⟩ ⟨.immediate, 0⟩ big, .input big] : List Instr),
    i.wf x32 = false := by decide

theorem test_wf_out_and_jumps : ∀ i ∈ ([
    .output ⟨.immediate, big⟩, .jt ⟨.immediate, big⟩ ⟨.immediate, 0⟩, .jt ⟨.immediate, 0⟩ ⟨.immediate, big⟩,
    .jf ⟨.positional, big⟩ ⟨.immediate, 0⟩, .jf ⟨.immediate, 0⟩ ⟨.positional, big⟩] : List Instr),
    i.wf x32 = false := by decide

/-- The ends of the range are Words, the next integers are not; at `XLEN = 64` and `inf` `2^31` is one (R6). -/
theorem test_word_range :
    x32.holds 2147483647 = true ∧ x32.holds (-2147483648) = true ∧ x32.holds 2147483648 = false ∧
      x32.holds (-2147483649) = false ∧ (Xlen.finite 32).holds big = true ∧
      (Xlen.finite 32).holds 9223372036854775808 = false ∧ Xlen.inf.holds 9223372036854775808 = true := by decide

/-- An `HLT` and a legal `ADD` are well-formed. -/
theorem test_wf_accepts :
    Instr.wf x32 .hlt = true ∧ Instr.wf x32 (.add ⟨.positional, 26⟩ ⟨.immediate, -4⟩ 26) = true := by decide

/-! ### Decoding (S1, DE1 to DE21, R70): one word at least per instruction, written from R67 and R62 -/

theorem test_decode_add : decode [1101, 5, -6, 7, 8] = .instr (.add ⟨.immediate, 5⟩ ⟨.immediate, -6⟩ 7) [8] ∧
    decode [100001, 1, 2, 3] = .instr (.add ⟨.positional, 1⟩ ⟨.positional, 2⟩ 3) [] := by decide

theorem test_decode_mul : decode [1002, 4, 3, 4] = .instr (.mul ⟨.positional, 4⟩ ⟨.immediate, 3⟩ 4) [] ∧
    decode [102, 0, 3, 3] = .instr (.mul ⟨.immediate, 0⟩ ⟨.positional, 3⟩ 3) [] := by decide

theorem test_decode_in : decode [1003, 2] = .instr (.input 2) [] ∧ decode [10003, 2] = .instr (.input 2) [] := by
  decide

theorem test_decode_out : decode [104, 7] = .instr (.output ⟨.immediate, 7⟩) [] ∧
    decode [90004, 7] = .instr (.output ⟨.positional, 7⟩) [] := by decide

theorem test_decode_jt : decode [11105, 1, 3] = .instr (.jt ⟨.immediate, 1⟩ ⟨.immediate, 3⟩) [] ∧
    decode [30105, 1, 3] = .instr (.jt ⟨.immediate, 1⟩ ⟨.positional, 3⟩) [] := by decide

theorem test_decode_jf : decode [1006, 19, 16] = .instr (.jf ⟨.positional, 19⟩ ⟨.immediate, 16⟩) [] ∧
    decode [106, 0, 4] = .instr (.jf ⟨.immediate, 0⟩ ⟨.positional, 4⟩) [] := by decide

theorem test_decode_lt : decode [107, 3, 5, 7] = .instr (.lt ⟨.immediate, 3⟩ ⟨.positional, 5⟩ 7) [] := by decide

theorem test_decode_eq : decode [1008, 9, 10, 9] = .instr (.eq ⟨.positional, 9⟩ ⟨.immediate, 10⟩ 9) [] := by decide

theorem test_decode_hlt : ∀ w ∈ ([99, 199, 1099, 20099, 100099] : List Word), decode [w] = .instr .hlt [] := by
  decide

/-- S1: the digits of 1002, 1101, 2 and 11002. -/
theorem test_digits : ([1002, 1101, 2, 11002].map fun w : Word => (opcodeOf w, mode1 w, mode2 w, mode3 w)) =
    [(2, 0, 1, 0), (1, 1, 1, 0), (2, 0, 0, 0), (2, 0, 1, 1)] := by decide

/-- DE14 to DE21: no opcode; a negative Word is never one. -/
theorem test_decode_unknown : ∀ w ∈ ([0, 9, 109, 42, 123456, -1, -99, -1101, 100, 98] : List Word),
    decode [w, 0, 0, 0] = .reject .unknownOpcode := by decide

/-- R69, R110: `1103` has `m1 = 1` (R62), an immediate destination, so it is no `IN` (log entry 12). -/
theorem test_decode_1103 : decode [1103, 2] = .reject (.immediateDest 1) := by decide

/-- DE10 to DE13, E3, E9, E11: the first parameter that cannot be resolved decides. -/
theorem test_decode_bad_parameter :
    decode [103, 0] = .reject (.immediateDest 1) ∧ decode [11101, 0, 0, 0] = .reject (.immediateDest 3) ∧
      decode [203, 0] = .reject (.badMode 1) ∧ decode [20001, 0, 0, 0] = .reject (.badMode 3) ∧
      decode [204] = .reject (.missing 1) ∧ decode [2201, 5] = .reject (.badMode 1) ∧
      decode [20001, 0, 0] = .reject (.missing 3) ∧ decode [2105, 1, 0] = .reject (.badMode 2) := by decide

/-- R73's examples, through the encoder. -/
theorem test_encode :
    encode (.add ⟨.positional, 9⟩ ⟨.immediate, -4⟩ 9) = [1001, 9, -4, 9] ∧ encode (.output ⟨.immediate, 7⟩) = [104, 7] ∧
      encode (.jt ⟨.positional, 28⟩ ⟨.immediate, 6⟩) = [1005, 28, 6] ∧ encode .hlt = [99] := by decide

/-! ### One step of each instruction -/

/-- A1. -/
theorem test_add_positional : seen (step (start [1, 5, 6, 7, 99, 20, 22, 0])) =
    some ⟨[1, 5, 6, 7, 99, 20, 22, 42], 4, [], [], false, none⟩ := by decide

/-- A2: the destination is the instruction's own Word. -/
theorem test_add_overwrites_itself : seen (step (start [1101, -5, 3, 0])) =
    some ⟨[-2, -5, 3, 0], 4, [], [], false, none⟩ := by decide

/-- A12: `WMIN` itself is in range. -/
theorem test_mul_wmin : seen (step (start [1102, 65536, -32768, 0, 99])) =
    some ⟨[-2147483648, 65536, -32768, 0, 99], 4, [], [], false, none⟩ := by decide

/-- A7: a product of 0 stored. -/
theorem test_mul_zero : seen (step (start [102, 0, 3, 3])) = some ⟨[102, 0, 3, 0], 4, [], [], false, none⟩ := by
  decide

/-- IO2: the head is taken, the order kept. -/
theorem test_in_takes_head : seen (step (running x32 [3, 0] [5, 6] false)) =
    some ⟨[5, 0], 2, [6], [], false, none⟩ := by decide

/-- IO5: a destination out of bounds pops nothing. -/
theorem test_in_fault_keeps_queue : seen (step (running x32 [3, 50] [7] false)) =
    some ⟨[3, 50], 0, [7], [], false, some (.outOfBounds 50 0)⟩ := by decide

/-- IO8. -/
theorem test_out_positional : seen (step (start [4, 2, -9])) = some ⟨[4, 2, -9], 2, [], [-9], false, none⟩ := by
  decide

/-- IO10, as `exec`: under `SUSP = 1` the flag is set by the commit. -/
theorem test_out_suspends :
    seen (exec (.output ⟨.immediate, 7⟩) (running x32 [104, 7] [] true)) =
      some ⟨[104, 7], 2, [], [7], true, none⟩ := by decide

/-- J5: a negative condition is true; a positional target is the cell's content. -/
theorem test_jt_positional : seen (step (start [5, 3, 4, -2, 0])) =
    some ⟨[5, 3, 4, -2, 0], 0, [], [], false, none⟩ := by decide

/-- J9, J9b: a jump past the end completes; the next fetch faults. -/
theorem test_jt_past_end : seen (step (start [1105, 1, 10])) = some ⟨[1105, 1, 10], 10, [], [], false, none⟩ ∧
    seen (step (setIp (start [1105, 1, 10]) 10)) =
      some ⟨[1105, 1, 10], 10, [], [], false, some (.outOfBounds 10 10)⟩ := by decide

/-- J3. -/
theorem test_jf_taken : seen (step (start [1106, 0, 4, 99, 99])) =
    some ⟨[1106, 0, 4, 99, 99], 4, [], [], false, none⟩ := by decide

/-- J6: not taken, so the target's index 77, out of bounds, is not read. -/
theorem test_jf_lazy_target : seen (step (start [6, 0, 77, 99])) =
    some ⟨[6, 0, 77, 99], 3, [], [], false, none⟩ := by decide

/-- CM9: no subtraction, no overflow. -/
theorem test_lt_extremes : seen (step (start [1107, -2147483648, 2147483647, 5, 99, 0])) =
    some ⟨[1107, -2147483648, 2147483647, 5, 99, 1], 4, [], [], false, none⟩ := by decide

/-- CM11: the result is written even when it is 0. -/
theorem test_lt_writes_zero : seen (step (start [7, 4, 4, 4, 5])) = some ⟨[7, 4, 4, 4, 0], 4, [], [], false, none⟩ := by
  decide

/-- CM5. -/
theorem test_eq_false : seen (step (start [1108, 8, -8, 5, 99, 7])) =
    some ⟨[1108, 8, -8, 5, 99, 0], 4, [], [], false, none⟩ := by decide

/-- CM7: all three parameters name cell 0. -/
theorem test_eq_aliased : seen (step (start [8, 0, 0, 0])) = some ⟨[1, 0, 0, 0], 4, [], [], false, none⟩ := by decide

/-- H: `HLT` sets the flag and leaves the pointer; the step ends the run. -/
theorem test_hlt :
    seen (exec .hlt (start [1099])) = some ⟨[1099], 0, [], [], true, none⟩ ∧
      (nextOf (step (start [1099]))).map (fun t => (t.ip, t.halt, t.busy, t.stop)) =
        some (0, false, false, .halt) := by decide

/-- R150, R152: a busy machine with `HALT` set, or with a record in `ERR`, leaves the loop and its run ends. -/
theorem test_loop_is_left :
    ((nextOf (step (setHalt (start [99])))).map fun t => (t.ip, t.halt, t.busy, t.stop)) =
      some (0, false, false, .halt) ∧
    ((nextOf (step (setHalt (running x32 [4, 1] [] true)))).map fun t => (t.ip, t.halt, t.busy, t.stop)) =
      some (0, false, false, .suspend) ∧
    ((nextOf (step (startRun (withFault (.starvedInput 0) (start [3, 2, 0]))))).map fun t =>
      (t.halt, t.busy, t.stop, t.err)) = some (false, false, .fault, some (.starvedInput 0)) := by decide

/-! ### Faults (A9, A14 to A18, IO3, J8, E1, E6, E7, E15) -/

theorem test_overflow_fault : seen (step (start [1101, 2147483647, 1, 0, 99])) =
    some ⟨[1101, 2147483647, 1, 0, 99], 0, [], [], false, some (.overflow 0)⟩ := by decide

/-- A10: the same image runs at `XLEN = 64` and `inf`. -/
theorem test_no_overflow_wider :
    seen (step (running (.finite 32) [1101, 2147483647, 1, 0, 99] [] false)) =
      some ⟨[2147483648, 2147483647, 1, 0, 99], 4, [], [], false, none⟩ ∧
    seen (step (running .inf [1101, 2147483647, 1, 0, 99] [] false)) =
      some ⟨[2147483648, 2147483647, 1, 0, 99], 4, [], [], false, none⟩ := by decide

/-- A14, A15, A16, A17, A18, IO3, J8, E1, E6, E7, E15: the record of each. -/
theorem test_fault_records :
    ([[1101, 1, 1, 4], [1, -1, 0, 0], [1, 0, 0], [1101, 2147483647, 1, 9], [2, 0, 0, 99], [3, 2, 0], [1105, 1, -1], [],
      [3, 50], [11002, 1, 2, 3], [-1]] : List (List Word)).map (fun m => (nextOf (step (start m))).map (·.err)) =
    [some (some (.outOfBounds 4 0)), some (some (.outOfBounds (-1) 0)), some (some (.outOfBounds 3 0)),
      some (some (.outOfBounds 9 0)), some (some (.outOfBounds 99 0)), some (some (.starvedInput 0)),
      some (some (.outOfBounds (-1) 0)), some (some (.outOfBounds 0 0)), some (some (.outOfBounds 50 0)),
      some (some (.decode 0 11002)), some (some (.decode 0 (-1)))] := by decide

/-- R175. -/
theorem test_codes :
    ([none, some (.decode 0 0), some (.outOfBounds 0 0), some (.starvedInput 0), some (.overflow 0)].map faultCode,
      [StopCause.none, .halt, .suspend, .fault].map stopCode) = ([0, 1, 2, 3, 4], [0, 1, 2, 3]) := by decide

/-! ### Short runs and the host (H4, E17, RV3, RV5, RV6) -/

/-- H4. -/
theorem test_suspend_then_halt :
    (hostScript 3 [.run, .peekIp, .output, .run, .peekIp, .output] (construct x32 [104, 1, 99] true)).map (·.2) =
      some [.status .doneSuspend, .index 2, .words [1], .status .doneHalt, .index 2, .words [1]] := by decide

/-- E17: a starved machine is not revived by input. -/
theorem test_fault_is_sticky :
    (hostScript 2 [.run, .addInput 5, .run, .peekIp] (construct x32 [3, 0, 99] false)).map (·.2) =
      some [.status (.failed (.starvedInput 0)), .unit, .status (.failed (.starvedInput 0)), .index 0] := by decide

/-- RV3, RV5, RV6. -/
theorem test_host_operations :
    (hostScript 3 [.addInput 5, .addInput 6, .run, .peekMem 0, .peekIp, .load [99] none, .peekIp, .output]
      (construct x32 [3, 0, 99] false)).map (·.2) =
      some [.unit, .unit, .status .doneHalt, .word 5, .index 2, .unit, .index 0, .words []] ∧
    hostStep (.peekMem 3) (construct x32 [3, 0, 99] false) = .refused .outOfBounds := by decide

/-! ### The assembler (P2, R73) -/

/-- P2's image. -/
theorem test_assemble_p2 :
    assemble [.instr (.input (.label "a")), .instr (.input (.label "b")),
      .instr (.lt (.pos (.label "a")) (.pos (.label "b")) (.label "t")),
      .instr (.jt (.pos (.label "t")) (.imm (.label "outb"))), .instr (.output (.pos (.label "a"))), .instr .hlt,
      .label "outb", .instr (.output (.pos (.label "b"))), .instr .hlt,
      .label "a", .word [0], .label "b", .word [0], .label "t", .word [0]] =
    some [3, 17, 3, 18, 7, 17, 18, 19, 1005, 19, 14, 4, 17, 99, 4, 18, 99, 0, 0, 0] := by decide

/-- A label on the last line stands for the image's length (log entry 10). -/
theorem test_assemble_trailing_label :
    assemble [.instr (.jt (.imm (.num 1)) (.imm (.label "end"))), .label "end"] = some [1105, 1, 3] := by decide

theorem test_assemble_refuses :
    assemble [.instr (.jt (.imm (.num 1)) (.imm (.label "x")))] = none ∧ assemble [.label "a", .label "a"] = none := by
  decide

/-! ### The host's table words (log entry 8) -/

theorem test_table_word :
    decodeTableWord 8 4 = some (.output ⟨.positional, 0⟩) ∧ decodeTableWord 16 1101 =
      some (.add ⟨.immediate, 0⟩ ⟨.immediate, 0⟩ 0) ∧ decodeTableWord 8 99 = some .hlt ∧ decodeTableWord 8 9 = none := by
  decide

/-- The very next step after `withFetchWord` runs that instruction, whatever `XLEN` is. -/
theorem test_withFetchWord : (seen (step (State.reset.withFetchWord 8 4))) =
    some ⟨[4, 0, 0, 0], 2, [], [4], false, none⟩ ∧
    (seen (step (State.reset.withFetchWord 8 1))) = some ⟨[2, 0, 0, 0], 4, [], [], false, none⟩ := by
  exact ⟨rfl, rfl⟩

/-! ### Witnesses: the hypotheses of each obligation met together, each clause at a boundary value -/

/-- An idle machine: `[1,0,0,0,99]` loaded at `XLEN = 32`. -/
abbrev idle : State := construct x32 [1, 0, 0, 0, 99] false

/-- An idle machine that has faulted (IO3). -/
abbrev faulted : State := withFault (.starvedInput 0) (start [3, 2, 0])

/-- The ends of the Word range as an image, and the empty image. -/
theorem witness_LoadLeavesTheResetTable :
    idle.busy = false ∧ (∀ v ∈ ([2147483647, -2147483648] : List Word), idle.xlen.holds v = true) ∧
      idle.xlen.holds (Int.ofNat ([2147483647, -2147483648] : List Word).length + 3) = true ∧
      (∀ v ∈ ([] : List Word), idle.xlen.holds v = true) ∧
      idle.xlen.holds (Int.ofNat ([] : List Word).length + 3) = true := by decide

/-- The first integers past each end, and an image one longer than `WMAX - 3`. -/
theorem witness_HostValuesOutsideWordRangeRefused :
    idle.busy = false ∧ (∃ v ∈ ([0, 2147483648] : List Word), idle.xlen.holds v = false) ∧
      idle.xlen.holds (-2147483649) = false ∧
      ∃ image : List Word, (∀ v ∈ image, idle.xlen.holds v = true) ∧
        idle.xlen.holds (Int.ofNat image.length + 3) = false := by
  refine ⟨by decide, by decide, by decide, List.replicate 2147483645 0, ?_, ?_⟩
  · intro v hv
    rw [(List.mem_replicate.1 hv).2]
    decide
  · rw [List.length_replicate]
    decide

theorem witness_AddInputAppends :
    idle.busy = false ∧ idle.xlen.holds 2147483647 = true ∧ faulted.busy = false ∧
      faulted.xlen.holds (-2147483648) = true := by decide

theorem witness_OutputReadIsIdempotent :
    (construct x32 [104, 7, 99] false).busy = false ∧
      ∃ u c, runToEnd 2 (construct x32 [104, 7, 99] false) = some (u, c) := ⟨rfl, _, _, rfl⟩

theorem witness_InspectionOfIdleMachine :
    idle.busy = false ∧ 0 < idle.n ∧ 4 < idle.n ∧ (-1 : Int) < 0 ∧ (idle.n : Int) ≤ 5 := by decide

theorem witness_HostHasNoMoveDuringRun : (start [99]).busy = true := by decide

theorem witness_RunStartsOrReportsFault :
    idle.busy = false ∧ idle.err = none ∧ faulted.busy = false ∧ faulted.err = some (.starvedInput 0) := by decide

theorem witness_OnlyLoadWritesTheMachine :
    (∀ image susp, HostOp.addInput 5 ≠ .load image susp) ∧ (∀ image susp, HostOp.run ≠ .load image susp) ∧
      (∃ t r, hostStep (.addInput 5) idle = .performed t r) ∧ ∃ t r, hostStep .run faulted = .performed t r :=
  ⟨fun _ _ h => (by cases h), fun _ _ h => (by cases h), ⟨_, _, rfl⟩, ⟨_, _, rfl⟩⟩

theorem witness_HostOpsKeepInvariant : idle.Inv ∧ (∃ t r, hostStep (.load [99] (some true)) idle = .performed t r) ∧
    faulted.Inv ∧ ∃ t r, hostStep .run faulted = .performed t r :=
  ⟨by decide, ⟨_, _, rfl⟩, by decide, ⟨_, _, rfl⟩⟩

theorem witness_StepRunsDecoded :
    InRun (start [104, 7, 99]) ∧ decode (fetchWords (start [104, 7, 99])) = .instr (.output ⟨.immediate, 7⟩) [99] := by
  dsimp only [InRun]
  decide

theorem witness_EndOfRunThroughFlag : (start [99]).halt = false ∧ (setHalt (start [99])).halt = true := by decide

/-- Idle; busy with `HALT` set; busy with a record in `ERR`; busy with `HALT` set under `SUSP = 1` and no `HLT` at `IP`. -/
theorem witness_IdleMachineWaits :
    idle.busy = false ∧ ((setHalt (start [99])).busy = true ∧ ¬ InRun (setHalt (start [99]))) ∧
      ((startRun faulted).busy = true ∧ ¬ InRun (startRun faulted) ∧ (startRun faulted).err ≠ none) ∧
      (setHalt (running x32 [4, 1] [] true)).busy = true ∧ ¬ InRun (setHalt (running x32 [4, 1] [] true)) ∧
      (setHalt (running x32 [4, 1] [] true)).err = none ∧ (setHalt (running x32 [4, 1] [] true)).susp = true ∧
      ∀ rest, decode (fetchWords (setHalt (running x32 [4, 1] [] true))) ≠ .instr .hlt rest := by
  refine ⟨by decide, ?_, ?_, by decide, ?_, by decide, by decide, ?_⟩
  · dsimp only [InRun]
    decide
  · dsimp only [InRun]
    decide
  · dsimp only [InRun]
    decide
  · intro rest
    show decode [4, 1] ≠ _
    simp [decode, opcodeOf, decodeR, withRead, mode1, modeOf]

/-- The last cell of memory and the first that does not exist, at `k = 0` and at `k = 3`. -/
theorem witness_FetchReadsCurrentMemory :
    0 < 4 ∧ 3 < 4 ∧ (start [1, 0, 0, 7]).ip + 3 < (start [1, 0, 0, 7]).n ∧
      ¬ (start [1, 0, 0]).ip + 3 < (start [1, 0, 0]).n ∧ ¬ (start []).ip + 0 < (start []).n := by decide

theorem witness_FetchIsBoundsChecked :
    InRun (start []) ∧ (start []).n ≤ (start []).ip ∧ InRun (start [99]) ∧ (start [99]).ip < (start [99]).n := by
  dsimp only [InRun]
  decide

theorem witness_UnknownOpcodeFaults :
    (InRun (start [98]) ∧ (start [98]).ip < (start [98]).n ∧ (start [98]).mem.get (start [98]).ip = 98 ∧
      formatOf (Int.tmod 98 100) = none) ∧
    (InRun (start [-1]) ∧ (start [-1]).ip < (start [-1]).n ∧ (start [-1]).mem.get (start [-1]).ip = -1 ∧
      (-1 : Word) < 0) := by
  dsimp only [InRun]
  decide

theorem witness_DecodeFaultsAreTaken :
    InRun (start [204]) ∧ decode (fetchWords (start [204])) = .reject (.missing 1) ∧
    InRun (start [0]) ∧ decode (fetchWords (start [0])) = .reject .unknownOpcode ∧
    InRun (start [204, 0]) ∧ decode (fetchWords (start [204, 0])) = .reject (.badMode 1) ∧
    InRun (start [103, 0]) ∧ decode (fetchWords (start [103, 0])) = .reject (.immediateDest 1) := by
  dsimp only [InRun]
  decide

/-- The first parameter (`k = 0`, nothing before it) and the last (`k = 2`, the two before it legal), each clause. -/
theorem witness_DecodeRejectsFirstBadParameter :
    (formatOf (Int.tmod 204 100) = some .r ∧ Format.r.roles[0]? = some .read ∧
      (∀ j r, j < 0 → Format.r.roles[j]? = some r →
        (∃ p, ([] : List Word)[j]? = some p) ∧ legalDigit r (modeDigit 204 j)) ∧ ([] : List Word)[0]? = none) ∧
    (formatOf (Int.tmod 11101 100) = some .rrw ∧ Format.rrw.roles[2]? = some .write ∧
      (∀ j r, j < 2 → Format.rrw.roles[j]? = some r →
        (∃ p, ([5, 6, 7] : List Word)[j]? = some p) ∧ legalDigit r (modeDigit 11101 j)) ∧
      ([5, 6, 7] : List Word)[2]? = some 7 ∧ modeDigit 11101 2 = 1) ∧
    (formatOf (Int.tmod 21101 100) = some .rrw ∧
      (∀ j r, j < 2 → Format.rrw.roles[j]? = some r →
        (∃ p, ([5, 6, 7] : List Word)[j]? = some p) ∧ legalDigit r (modeDigit 21101 j)) ∧
      modeDigit 21101 2 ≠ 0 ∧ modeDigit 21101 2 ≠ 1) := by
  have two : ∀ w : Word, modeDigit w 0 = 1 → modeDigit w 1 = 1 → ∀ j r, j < 2 → Format.rrw.roles[j]? = some r →
      (∃ p, ([5, 6, 7] : List Word)[j]? = some p) ∧ legalDigit r (modeDigit w j) := by
    intro w h0 h1 j r hj hr
    rcases j with _ | _ | j
    · cases hr
      exact ⟨⟨_, rfl⟩, .inr h0⟩
    · cases hr
      exact ⟨⟨_, rfl⟩, .inr h1⟩
    · omega
  exact ⟨⟨by decide, by decide, fun j r hj => absurd hj (by omega), by decide⟩,
    ⟨by decide, by decide, two _ (by decide) (by decide), by decide, by decide⟩,
    ⟨by decide, two _ (by decide) (by decide), by decide, by decide⟩⟩

/-- A Word with parameters and one without. -/
theorem witness_DecodeAcceptsLegalWords :
    (formatOf (Int.tmod 3 100) = some .w ∧ ∀ j r, Format.w.roles[j]? = some r →
      (∃ p, ([9] : List Word)[j]? = some p) ∧ legalDigit r (modeDigit 3 j)) ∧
    (formatOf (Int.tmod 99 100) = some .z ∧ ∀ j r, Format.z.roles[j]? = some r →
      (∃ p, ([] : List Word)[j]? = some p) ∧ legalDigit r (modeDigit 99 j)) := by
  refine ⟨⟨by decide, fun j r hr => ?_⟩, ⟨by decide, fun j r hr => ?_⟩⟩
  · rcases j with _ | j
    · cases hr
      exact ⟨⟨_, rfl⟩, show modeDigit 3 0 = 0 by decide⟩
    · cases hr
  · cases hr

theorem witness_DecodedInstructionMatchesWord : decode [104, 7, 8] = .instr (.output ⟨.immediate, 7⟩) [8] := by decide

/-- `104` and `90104`: the same opcode and the same used digit. -/
theorem witness_UndecodedDigitsAreIgnored :
    (0 : Word) ≤ 104 ∧ decode [104, 7] = .instr (.output ⟨.immediate, 7⟩) [] ∧ (0 : Word) ≤ 90104 ∧
      Int.tmod 90104 100 = Int.tmod 104 100 ∧
      ∀ j, j < (Instr.output ⟨.immediate, 7⟩).modes.length → modeDigit 90104 j = modeDigit 104 j := by decide

theorem witness_OperandResolver :
    ((0 : Int) ≤ 0 ∧ (0 : Int) < idle.n) ∧ ((0 : Int) ≤ 4 ∧ (4 : Int) < idle.n) ∧
      ¬ ((0 : Int) ≤ -1 ∧ (-1 : Int) < idle.n) ∧ ¬ ((0 : Int) ≤ 5 ∧ (5 : Int) < idle.n) := by decide

/-- The sum is `WMAX`; the operands are the last cell and an immediate; the destination is cell 0. -/
theorem witness_AddStoresSum :
    Readable idle ⟨.positional, 4⟩ ∧ Readable idle ⟨.immediate, 2147483548⟩ ∧ HasCell idle 0 ∧
      idle.xlen.holds (valueIn idle ⟨.positional, 4⟩ + valueIn idle ⟨.immediate, 2147483548⟩) = true := by
  dsimp only [Readable, HasCell]
  decide

/-- The sum is `WMIN`, the product `WMAX`. -/
theorem witness_ArithmeticIsExactAndCommutative :
    idle.mem.wf idle.n = true ∧ Readable idle ⟨.positional, 4⟩ ∧ Readable idle ⟨.immediate, -2147483747⟩ ∧
      HasCell idle 4 ∧ idle.xlen.holds (valueIn idle ⟨.positional, 4⟩ + valueIn idle ⟨.immediate, -2147483747⟩) = true ∧
      Readable idle ⟨.positional, 0⟩ ∧ Readable idle ⟨.immediate, 2147483647⟩ ∧
      idle.xlen.holds (valueIn idle ⟨.positional, 0⟩ * valueIn idle ⟨.immediate, 2147483647⟩) = true := by
  dsimp only [Readable, HasCell]
  decide

/-- The product is `WMIN` (A12). -/
theorem witness_MulStoresProduct :
    Readable idle ⟨.immediate, 65536⟩ ∧ Readable idle ⟨.immediate, -32768⟩ ∧ HasCell idle 4 ∧
      idle.xlen.holds (valueIn idle ⟨.immediate, 65536⟩ * valueIn idle ⟨.immediate, -32768⟩) = true := by
  dsimp only [Readable, HasCell]
  decide

/-- `WMAX + 1` (A9) and `2^31` (A11). -/
theorem witness_ArithmeticOverflowFaults :
    Readable idle ⟨.immediate, 2147483647⟩ ∧ Readable idle ⟨.immediate, 1⟩ ∧ HasCell idle 0 ∧
      idle.xlen.holds (valueIn idle ⟨.immediate, 2147483647⟩ + valueIn idle ⟨.immediate, 1⟩) = false ∧
      Readable idle ⟨.immediate, 65536⟩ ∧ Readable idle ⟨.immediate, 32768⟩ ∧
      idle.xlen.holds (valueIn idle ⟨.immediate, 65536⟩ * valueIn idle ⟨.immediate, 32768⟩) = false := by
  dsimp only [Readable, HasCell]
  decide

/-- Operands and destination for `LT`, `EQ` and the laws of both: less, equal, greater; a target for the jump. -/
theorem witness_LtStoresTruth :
    Readable idle ⟨.positional, 0⟩ ∧ Readable idle ⟨.positional, 4⟩ ∧ HasCell idle 4 ∧
      valueIn idle ⟨.positional, 0⟩ < valueIn idle ⟨.positional, 4⟩ ∧
      ¬ valueIn idle ⟨.positional, 0⟩ < valueIn idle ⟨.positional, 0⟩ := by
  dsimp only [Readable, HasCell]
  decide

theorem witness_EqStoresTruth :
    Readable idle ⟨.positional, 0⟩ ∧ Readable idle ⟨.immediate, 1⟩ ∧ HasCell idle 0 ∧
      valueIn idle ⟨.positional, 0⟩ = valueIn idle ⟨.immediate, 1⟩ ∧
      valueIn idle ⟨.positional, 0⟩ ≠ valueIn idle ⟨.positional, 4⟩ := by
  dsimp only [Readable, HasCell]
  decide

theorem witness_ComparisonLaws :
    idle.mem.wf idle.n = true ∧ Readable idle ⟨.positional, 0⟩ ∧ Readable idle ⟨.positional, 4⟩ ∧ HasCell idle 4 ∧
      ∃ t, exec (.lt ⟨.positional, 0⟩ ⟨.positional, 4⟩ 4) idle = .next t ∧ Readable t ⟨.immediate, 0⟩ ∧
        0 ≤ valueIn t ⟨.immediate, 0⟩ ∧ HasCell t 4 ∧
        t.xlen.holds (t.mem.get (Int.toNat 4) + valueIn t ⟨.immediate, 0⟩) = true ∧
        t.xlen.holds (t.mem.get (Int.toNat 4) * valueIn t ⟨.immediate, 0⟩) = true := by
  refine ⟨by decide, ?_, ?_, ?_, _, rfl, ?_, by decide, ?_, by decide, by decide⟩ <;>
    dsimp only [Readable, HasCell] <;> decide

/-- `a` at `-1`; `b` at `N`; `dst` at `N`. -/
theorem witness_BinaryOperandFaultsInOrder :
    ¬ Readable idle ⟨.positional, -1⟩ ∧ Readable idle ⟨.positional, 4⟩ ∧ ¬ Readable idle ⟨.positional, 5⟩ ∧
      ¬ HasCell idle 5 ∧ Instr.eq ⟨.positional, 4⟩ ⟨.positional, 4⟩ 5 ∈ [
        Instr.add ⟨.positional, 4⟩ ⟨.positional, 4⟩ 5, Instr.mul ⟨.positional, 4⟩ ⟨.positional, 4⟩ 5,
        Instr.lt ⟨.positional, 4⟩ ⟨.positional, 4⟩ 5, Instr.eq ⟨.positional, 4⟩ ⟨.positional, 4⟩ 5] := by
  dsimp only [Readable, HasCell]
  decide

theorem witness_InStoresHeadOfQueue :
    (running x32 [3, 0] [5, 6] false).inq = 5 :: [6] ∧ HasCell (running x32 [3, 0] [5, 6] false) 0 ∧
      HasCell (running x32 [3, 0] [5, 6] false) 1 := by
  dsimp only [HasCell]
  decide

theorem witness_InFaultsWithoutPopping :
    ¬ HasCell (running x32 [3, 0] [5, 6] false) 2 ∧ ¬ HasCell (running x32 [3, 0] [5, 6] false) (-1) ∧
      HasCell (start [3, 1]) 1 ∧ (start [3, 1]).inq = [] := by
  dsimp only [HasCell]
  decide

theorem witness_OutAppendsValue : Readable idle ⟨.positional, 4⟩ ∧ ¬ Readable idle ⟨.positional, 5⟩ := by
  dsimp only [Readable]
  decide

/-- Under `SUSP = 1`, under `SUSP = 0`, and an instruction that is no `OUT`. -/
theorem witness_SuspendOnOutput :
    (InRun (running x32 [4, 1] [] true) ∧
      decode (fetchWords (running x32 [4, 1] [] true)) = .instr (.output ⟨.positional, 1⟩) [] ∧
      Readable (running x32 [4, 1] [] true) ⟨.positional, 1⟩ ∧ (running x32 [4, 1] [] true).susp = true) ∧
    (InRun (start [4, 1]) ∧ decode (fetchWords (start [4, 1])) = .instr (.output ⟨.positional, 1⟩) [] ∧
      Readable (start [4, 1]) ⟨.positional, 1⟩ ∧ (start [4, 1]).susp = false) ∧
    (∀ a, Instr.hlt ≠ .output a) ∧ ∃ t, exec .hlt idle = .next t := by
  refine ⟨?_, ?_, fun _ h => (by cases h), _, rfl⟩ <;> dsimp only [InRun, Readable] <;> decide

/-- Taken on `-1` to a positional target of value 0; not taken on 0. -/
theorem witness_JtJumpsWhenNonzero :
    Readable idle ⟨.immediate, -1⟩ ∧ valueIn idle ⟨.immediate, -1⟩ ≠ 0 ∧ Readable idle ⟨.positional, 1⟩ ∧
      0 ≤ valueIn idle ⟨.positional, 1⟩ ∧ valueIn idle ⟨.positional, 1⟩ = 0 := by
  dsimp only [Readable]
  decide

theorem witness_JfJumpsWhenZero :
    Readable idle ⟨.positional, 1⟩ ∧ valueIn idle ⟨.positional, 1⟩ = 0 ∧ Readable idle ⟨.immediate, 0⟩ ∧
      0 ≤ valueIn idle ⟨.immediate, 0⟩ ∧ Readable idle ⟨.immediate, -1⟩ ∧ valueIn idle ⟨.immediate, -1⟩ ≠ 0 := by
  dsimp only [Readable]
  decide

theorem witness_JumpFaultsInOrder :
    ¬ Readable idle ⟨.positional, 5⟩ ∧ Readable idle ⟨.immediate, 1⟩ ∧ valueIn idle ⟨.immediate, 1⟩ ≠ 0 ∧
      Readable idle ⟨.immediate, 0⟩ ∧ valueIn idle ⟨.immediate, 0⟩ = 0 ∧ ¬ Readable idle ⟨.positional, -1⟩ ∧
      Readable idle ⟨.immediate, -1⟩ ∧ valueIn idle ⟨.immediate, -1⟩ < 0 := by
  dsimp only [Readable]
  decide

/-- The target is `N` itself. -/
theorem witness_JumpPastEndFaultsAtNextFetch :
    (InRun (start [1105, 1, 3]) ∧
      decode (fetchWords (start [1105, 1, 3])) = .instr (.jt ⟨.immediate, 1⟩ ⟨.immediate, 3⟩) [] ∧
      valueIn (start [1105, 1, 3]) ⟨.immediate, 1⟩ ≠ 0 ∧ Readable (start [1105, 1, 3]) ⟨.immediate, 1⟩ ∧
      Readable (start [1105, 1, 3]) ⟨.immediate, 3⟩ ∧
      ((start [1105, 1, 3]).n : Int) ≤ valueIn (start [1105, 1, 3]) ⟨.immediate, 3⟩) ∧
    (InRun (start [1106, 0, 3]) ∧
      decode (fetchWords (start [1106, 0, 3])) = .instr (.jf ⟨.immediate, 0⟩ ⟨.immediate, 3⟩) [] ∧
      valueIn (start [1106, 0, 3]) ⟨.immediate, 0⟩ = 0 ∧ Readable (start [1106, 0, 3]) ⟨.immediate, 0⟩ ∧
      Readable (start [1106, 0, 3]) ⟨.immediate, 3⟩ ∧
      ((start [1106, 0, 3]).n : Int) ≤ valueIn (start [1106, 0, 3]) ⟨.immediate, 3⟩) := by
  dsimp only [InRun, Readable]
  decide

theorem witness_HltEndsTheRun :
    (InRun (start [1099]) ∧ (start [1099]).ip < (start [1099]).n ∧ (start [1099]).mem.get (start [1099]).ip = 1099 ∧
      (0 : Word) ≤ 1099 ∧ Int.tmod 1099 100 = 99) ∧
    (InRun (start [-99]) ∧ (start [-99]).ip < (start [-99]).n ∧ (start [-99]).mem.get (start [-99]).ip = -99 ∧
      (-99 : Word) < 0) := by
  dsimp only [InRun]
  decide

theorem witness_HaltedMachineStaysHalted :
    let s := construct x32 [99] false
    s.busy = false ∧ s.halt = false ∧ s.err = none ∧ s.ip < s.n ∧ 0 ≤ s.mem.get s.ip ∧
      Int.tmod (s.mem.get s.ip) 100 = 99 := by decide

theorem witness_StepKeepsInvariant :
    (start [1, 0, 0, 0, 99]).Inv ∧ ∃ t, step (start [1, 0, 0, 0, 99]) = .next t := ⟨by decide, _, rfl⟩

/-- An instruction that faults in `exec`, and a fetch that faults in `step`. -/
theorem witness_FaultsArePrecise :
    (idle.err = none ∧ ∃ t, exec (.input 5) idle = .next t ∧ t.err ≠ none) ∧
    (InRun (start []) ∧ ∃ t, step (start []) = .next t ∧ t.err ≠ none) := by
  refine ⟨⟨by decide, _, rfl, by decide⟩, ?_, _, rfl, by decide⟩
  dsimp only [InRun]
  decide

theorem witness_FaultIsSticky :
    faulted.Inv ∧ faulted.err = some (.starvedInput 0) ∧ (∀ image susp, HostOp.addInput 5 ≠ .load image susp) ∧
      (∃ t r, hostStep (.addInput 5) faulted = .performed t r) ∧ ∃ t r, hostStep .run faulted = .performed t r :=
  ⟨by decide, by decide, fun _ _ h => (by cases h), ⟨_, _, rfl⟩, ⟨_, _, rfl⟩⟩

theorem witness_StepKeepsConstants : ∃ t, step (running x32 [104, 7] [] true) = .next t := ⟨_, rfl⟩

/-- An instruction with a destination (and an address that is not it) and one with none. -/
theorem witness_OnlyDestinationCellChanges :
    (∃ t, exec (.add ⟨.immediate, 1⟩ ⟨.immediate, 1⟩ 4) idle = .next t) ∧
      (∀ d, destination (.add ⟨.immediate, 1⟩ ⟨.immediate, 1⟩ 4) = some d → (3 : Nat) ≠ d.toNat) ∧
      (∃ t, exec .hlt idle = .next t) ∧ destination .hlt = none := by
  refine ⟨⟨_, rfl⟩, fun d h => ?_, ⟨_, rfl⟩, rfl⟩
  cases h
  decide

theorem witness_PointerAdvancesOrJumps :
    idle.err = none ∧ (∃ t, exec (.jt ⟨.immediate, 1⟩ ⟨.immediate, 2⟩) idle = .next t ∧ t.err = none) ∧
      ∃ t, exec .hlt idle = .next t ∧ t.err = none := ⟨rfl, ⟨_, rfl, rfl⟩, ⟨_, rfl, rfl⟩⟩

theorem witness_QueuesAreFifo :
    (∃ t, exec (.input 1) (running x32 [3, 1] [5] false) = .next t ∧ t.inq = []) ∧
      ∃ t, exec (.output ⟨.immediate, 7⟩) idle = .next t ∧ t.outq = [7] := ⟨⟨_, rfl, rfl⟩, ⟨_, rfl, rfl⟩⟩

theorem witness_HaltFlagSetOnlyByHltAndSuspendingOut :
    (∃ t, exec .hlt idle = .next t ∧ idle.halt = false ∧ t.halt = true) ∧
      (∃ t, exec .hlt (setHalt idle) = .next t ∧ (setHalt idle).halt = true) ∧
      ∃ t, (start [99]).halt = false ∧ step (start [99]) = .next t :=
  ⟨⟨_, rfl, rfl, rfl⟩, ⟨_, rfl, rfl⟩, ⟨_, rfl, rfl⟩⟩

/-- P3's first step, with cell 4, the next instruction's Word, the last of memory; and an `IN` into its next Word. -/
theorem witness_StoreIsSeenByNextFetch :
    (InRun (start [1, 1, 1, 4, 99]) ∧ (start [1, 1, 1, 4, 99]).mem.wf (start [1, 1, 1, 4, 99]).n = true ∧
      decode (fetchWords (start [1, 1, 1, 4, 99])) = .instr (.add ⟨.positional, 1⟩ ⟨.positional, 1⟩ 4) [] ∧
      HasCell (start [1, 1, 1, 4, 99]) 4 ∧
      (∀ o ∈ sourceOperands (.add ⟨.positional, 1⟩ ⟨.positional, 1⟩ 4), Readable (start [1, 1, 1, 4, 99]) o) ∧
      storedResult (start [1, 1, 1, 4, 99]) (.add ⟨.positional, 1⟩ ⟨.positional, 1⟩ 4) = some 2 ∧
      (start [1, 1, 1, 4, 99]).xlen.holds 2 = true ∧
      (4 : Int) = ((start [1, 1, 1, 4, 99]).ip : Int) + ipAdvance (.add ⟨.positional, 1⟩ ⟨.positional, 1⟩ 4)) ∧
    (InRun (running x32 [3, 2, 0] [99] false) ∧
      decode (fetchWords (running x32 [3, 2, 0] [99] false)) = .instr (.input 2) [0] ∧
      HasCell (running x32 [3, 2, 0] [99] false) 2 ∧
      (∀ o ∈ sourceOperands (.input 2), Readable (running x32 [3, 2, 0] [99] false) o) ∧
      storedResult (running x32 [3, 2, 0] [99] false) (.input 2) = some 99 ∧
      (2 : Int) = ((running x32 [3, 2, 0] [99] false).ip : Int) + ipAdvance (.input 2)) := by
  dsimp only [InRun, Readable, HasCell]
  decide

/-- A run that ends by a halt, one by a suspension, one by a fault. -/
theorem witness_RunEndsIdle :
    (InRun (start [104, 7, 99]) ∧ ∃ t, runLoop 2 (start [104, 7, 99]) = some t ∧ t.stop = .halt) ∧
    (InRun (running x32 [104, 7] [] true) ∧ ∃ t, runLoop 1 (running x32 [104, 7] [] true) = some t ∧ t.stop = .suspend) ∧
    (InRun (start []) ∧ ∃ t, runLoop 1 (start []) = some t ∧ t.stop = .fault) := by
  refine ⟨⟨?_, _, rfl, rfl⟩, ⟨?_, _, rfl, rfl⟩, ⟨?_, _, rfl, rfl⟩⟩ <;> dsimp only [InRun] <;> decide

/-- Under `SUSP = 1` a run by suspension and one by halt; under `SUSP = 0` one with an output. -/
theorem witness_OutputsOfARun :
    (InRun (running x32 [104, 7] [] true) ∧ (running x32 [104, 7] [] true).susp = true ∧
      ∃ t, runLoop 1 (running x32 [104, 7] [] true) = some t ∧ t.stop = .suspend) ∧
    (InRun (running x32 [99] [] true) ∧ (running x32 [99] [] true).susp = true ∧
      ∃ t, runLoop 1 (running x32 [99] [] true) = some t ∧ t.stop ≠ .suspend) ∧
    (InRun (start [104, 7, 99]) ∧ (start [104, 7, 99]).susp = false ∧
      ∃ t, runLoop 2 (start [104, 7, 99]) = some t ∧ t.outq = [7]) := by
  refine ⟨⟨?_, by decide, _, rfl, rfl⟩, ⟨?_, by decide, _, rfl, by decide⟩, ⟨?_, by decide, _, rfl, rfl⟩⟩ <;>
    dsimp only [InRun] <;> decide

theorem witness_RunConsumesOldestInput :
    ∃ t, runLoop 2 (running x32 [3, 0, 99] [5, 6] false) = some t ∧ t.inq = [6] := ⟨_, rfl, rfl⟩

theorem witness_SuspensionOnlyCutsTheRun :
    InRun (running x32 [1106, 0, 3, 104, 7] [] true) ∧ (running x32 [1106, 0, 3, 104, 7] [] true).susp = true ∧
      ∃ t, runLoop 2 (running x32 [1106, 0, 3, 104, 7] [] true) = some t ∧ t.stop = .suspend := by
  refine ⟨?_, by decide, _, rfl, rfl⟩
  dsimp only [InRun]
  decide

/-- J10; its `JF` counterpart; and a `JT` whose condition and target are both cells. -/
theorem witness_SelfJumpHangsTheRun :
    (InRun (start [1105, 1, 0]) ∧
      decode (fetchWords (start [1105, 1, 0])) = .instr (.jt ⟨.immediate, 1⟩ ⟨.immediate, 0⟩) [] ∧
      valueIn (start [1105, 1, 0]) ⟨.immediate, 1⟩ ≠ 0 ∧ Readable (start [1105, 1, 0]) ⟨.immediate, 1⟩ ∧
      Readable (start [1105, 1, 0]) ⟨.immediate, 0⟩ ∧
      valueIn (start [1105, 1, 0]) ⟨.immediate, 0⟩ = (start [1105, 1, 0]).ip) ∧
    (InRun (start [1106, 0, 0]) ∧
      decode (fetchWords (start [1106, 0, 0])) = .instr (.jf ⟨.immediate, 0⟩ ⟨.immediate, 0⟩) [] ∧
      valueIn (start [1106, 0, 0]) ⟨.immediate, 0⟩ = 0 ∧ Readable (start [1106, 0, 0]) ⟨.immediate, 0⟩ ∧
      valueIn (start [1106, 0, 0]) ⟨.immediate, 0⟩ = (start [1106, 0, 0]).ip) ∧
    (InRun (start [5, 0, 3, 0]) ∧
      decode (fetchWords (start [5, 0, 3, 0])) = .instr (.jt ⟨.positional, 0⟩ ⟨.positional, 3⟩) [0] ∧
      valueIn (start [5, 0, 3, 0]) ⟨.positional, 0⟩ ≠ 0 ∧ Readable (start [5, 0, 3, 0]) ⟨.positional, 0⟩ ∧
      Readable (start [5, 0, 3, 0]) ⟨.positional, 3⟩ ∧
      valueIn (start [5, 0, 3, 0]) ⟨.positional, 3⟩ = (start [5, 0, 3, 0]).ip) := by
  dsimp only [InRun, Readable]
  decide

theorem witness_CompletionStatus :
    ((construct x32 [104, 1, 99] true).Inv ∧
      ∃ t, runToEnd 1 (construct x32 [104, 1, 99] true) = some (t, .doneSuspend)) ∧
    (idle.Inv ∧ ∃ t, runToEnd 2 idle = some (t, .doneHalt)) ∧
    (faulted.Inv ∧ ∃ t, runToEnd 0 faulted = some (t, .failed (.starvedInput 0))) :=
  ⟨⟨by decide, _, rfl⟩, ⟨by decide, _, rfl⟩, ⟨by decide, _, rfl⟩⟩

/-- Two machines: a host operation, a step and a run of the second. -/
theorem witness_MachinesShareNothing :
    let f : Fleet := [idle, construct x32 [104, 1, 99] true]
    f[1]? = some (construct x32 [104, 1, 99] true) ∧ (∃ g r, fleetHost 1 (.addInput 5) f = some (g, r)) ∧
      (∃ g, fleetStep 1 f = some g) ∧ ∃ g c, fleetRun 1 1 f = some (g, c) :=
  ⟨rfl, ⟨_, _, rfl⟩, ⟨_, rfl⟩, ⟨_, _, rfl⟩⟩

/-- The three kinds of line. -/
theorem witness_AssemblerPlacesLines :
    assemble ([.instr .hlt] ++ .label "x" :: [.word [0]]) = some [99, 0] ∧
      assemble ([.label "x"] ++ .instr (.jt (.imm (.num 1)) (.imm (.label "x"))) :: []) = some [1105, 1, 0] ∧
      assemble ([] ++ .word [7, -8] :: []) = some [7, -8] := by decide

end Sys2Proof.Tests
end

section
/-! The fields of the state over one step (spec/10_state.md R23, R25 to R28): the constants, the queues and the flag. -/

namespace Sys2Proof.Machine

/-! ### The constants -/

/-- `N`, `SUSP` and `XLEN` are written by no instruction (R23, R27). -/
theorem exec_keeps_constants {i : Instr} {s t : State} (h : exec i s = .next t) :
    t.n = s.n ∧ t.susp = s.susp ∧ t.xlen = s.xlen := by
  rcases exec_cases h with (⟨_, _, -, -, -, -, rfl⟩ | ⟨_, _, _, -, -, -, rfl⟩ | ⟨_, -, -, rfl⟩ |
    ⟨_, -, -, -, (rfl | ⟨-, -, rfl⟩)⟩ | ⟨-, rfl⟩) | ⟨_, -, rfl⟩ <;> simp

@[simp] theorem loopTest_xlen (i : Instr) (t : State) : (loopTest i t).xlen = t.xlen := by
  unfold loopTest
  split <;> rfl

/-- Settles O47: of what a step can do, only executing an instruction could reach a constant, and none does. -/
theorem stepKeepsConstants : Obligations.StepKeepsConstants := by
  intro s t h
  rcases step_cases h with ⟨-, rfl⟩ | ⟨-, r, -, rfl⟩ | ⟨-, i, rest, u, -, hu, rfl⟩ | ⟨-, -, rfl⟩
  · exact ⟨rfl, rfl, rfl⟩
  · exact ⟨rfl, rfl, rfl⟩
  · obtain ⟨-, hn, -, -, -, hsusp, -⟩ := loopTest_keeps i u
    rw [hn, hsusp, loopTest_xlen]
    exact exec_keeps_constants hu
  · exact ⟨rfl, rfl, rfl⟩

/-! ### The queues -/

/-- An instruction leaves `INQ`, or is an `IN` that takes its head (R25). -/
theorem exec_inq {i : Instr} {s t : State} (h : exec i s = .next t) :
    t.inq = s.inq ∨ ((∃ d, i = .input d) ∧ ∃ v, s.inq = v :: t.inq) := by
  rcases exec_cases h with (⟨_, _, -, -, -, -, rfl⟩ | ⟨d, v, q, hi, hq, -, rfl⟩ | ⟨_, -, -, rfl⟩ |
    ⟨_, -, -, -, (rfl | ⟨-, -, rfl⟩)⟩ | ⟨-, rfl⟩) | ⟨_, -, rfl⟩
  case inl.inr.inl => exact .inr ⟨⟨d, hi⟩, v, hq⟩
  all_goals exact .inl (by simp)

/-- An instruction leaves `OUTQ`, or is an `OUT` that appends the value it reads (R26). -/
theorem exec_outq {i : Instr} {s t : State} (h : exec i s = .next t) :
    t.outq = s.outq ∨ ∃ a, i = .output a ∧ t.outq = s.outq ++ [valueIn s a] := by
  rcases exec_cases h with (⟨_, _, -, -, -, -, rfl⟩ | ⟨_, _, _, -, -, -, rfl⟩ | ⟨a, hi, -, rfl⟩ |
    ⟨_, -, -, -, (rfl | ⟨-, -, rfl⟩)⟩ | ⟨-, rfl⟩) | ⟨_, -, rfl⟩
  case inl.inr.inr.inl => exact .inr ⟨a, hi, by simp⟩
  all_goals exact .inl rfl

/-- Settles O50: each queue by its own law, `exec_inq` and `exec_outq`. -/
theorem queuesAreFifo : Obligations.QueuesAreFifo := by
  intro i s t h
  refine ⟨exec_inq h, (exec_outq h).imp_right ?_⟩
  rintro ⟨a, hi, hq⟩
  exact ⟨⟨a, hi⟩, _, hq⟩

/-! ### The flag -/

/-- What an instruction does to `HALT` (R28): `HLT` sets it, `OUT` sets it under `SUSP = 1`, all else leaves it. -/
theorem exec_halt {i : Instr} {s t : State} (h : exec i s = .next t) :
    t.halt = s.halt ∨ (i = .hlt ∧ t.halt = true) ∨ ((∃ a, i = .output a) ∧ t.halt = (s.halt || s.susp)) := by
  rcases exec_cases h with (⟨_, _, -, -, -, -, rfl⟩ | ⟨_, _, _, -, -, -, rfl⟩ | ⟨a, hi, -, rfl⟩ |
    ⟨_, -, -, -, (rfl | ⟨-, -, rfl⟩)⟩ | ⟨hi, rfl⟩) | ⟨_, -, rfl⟩
  case inl.inr.inr.inl => exact .inr (.inr ⟨⟨a, hi⟩, by simp [haltWhenSuspending_eq]⟩)
  case inl.inr.inr.inr.inr => exact .inr (.inl ⟨hi, rfl⟩)
  all_goals exact .inl rfl

/-- No instruction clears `HALT` (R28). -/
theorem exec_keeps_halt {i : Instr} {s t : State} (h : exec i s = .next t) (hs : s.halt = true) : t.halt = true := by
  rcases exec_halt h with e | ⟨-, e⟩ | ⟨-, e⟩ <;> simp [e, hs]

/-- An instruction that raises `HALT` is `HLT`, or `OUT` under `SUSP = 1` (R28). -/
theorem exec_raises_halt {i : Instr} {s t : State} (h : exec i s = .next t) (hs : s.halt = false)
    (ht : t.halt = true) : i = .hlt ∨ ((∃ a, i = .output a) ∧ s.susp = true) := by
  rcases exec_halt h with e | ⟨hi, -⟩ | ⟨ha, e⟩
  · rw [e, hs] at ht
    cases ht
  · exact .inl hi
  · exact .inr ⟨ha, by simpa [e, hs] using ht⟩

/-- After an instruction that can set the flag, the loop's test leaves `HALT = 0` (R152). -/
theorem loopTest_halt_of_haltCause {i : Instr} {c : StopCause} (hc : haltCause i = some c) (t : State) :
    (loopTest i t).halt = false := by
  cases ht : t.halt with
  | false => rw [loopTest_running ht, ht]
  | true => simp [loopTest, ht, hc]

/-- `HALT = 0` before an instruction is `HALT = 0` after the loop's test that follows it: what raises the flag is what
the test ends the run for (R28, R152). -/
theorem loopTest_halt_of_exec {i : Instr} {s u : State} (h : exec i s = .next u) (hs : s.halt = false) :
    (loopTest i u).halt = false := by
  cases hu : u.halt with
  | false => rw [loopTest_running hu, hu]
  | true =>
    rcases exec_raises_halt h hs hu with rfl | ⟨⟨a, rfl⟩, -⟩
    · exact loopTest_halt_of_haltCause rfl u
    · exact loopTest_halt_of_haltCause rfl u

/-- Settles O51; that `HALT = 0` between steps is read at the model's step points, after the loop's test (log entry 5). -/
theorem haltFlagSetOnlyByHltAndSuspendingOut : Obligations.HaltFlagSetOnlyByHltAndSuspendingOut := by
  refine ⟨fun i s t h => ⟨exec_keeps_halt h, exec_raises_halt h⟩, fun s t hs h => ?_⟩
  rcases step_cases h with ⟨-, rfl⟩ | ⟨-, r, -, rfl⟩ | ⟨-, i, rest, u, -, hu, rfl⟩ | ⟨-, -, rfl⟩
  · exact hs
  · exact hs
  · exact loopTest_halt_of_exec hu hs
  · rfl

end Sys2Proof.Machine
end

section
/-! Memory over one step (spec/20_memory.md R41, R46, R47, R53): what the fetch reads, which cell an instruction writes,
and that the fetch after a store reads the Word stored. -/

namespace Sys2Proof.Machine

/-! ### What the fetch reads -/

theorem getElem?_fetchWords (s : State) {k : Nat} (hk : k < 4) :
    (fetchWords s)[k]? = if s.ip + k < s.n then some (s.mem.get (s.ip + k)) else none := by
  rw [fetchWords, getElem?_window]
  simp only [Config.maxLength, hk, true_and]

/-- Settles O14: the fetch is the window of `MEM` at `IP`. -/
theorem fetchReadsCurrentMemory : Obligations.FetchReadsCurrentMemory :=
  fun s _ hk => getElem?_fetchWords s hk

/-- A fetch that reaches an existing cell reads the Word of that cell. -/
theorem getElem?_fetchWords_of_hasCell {s : State} {d : Word} {j : Nat} (hd : HasCell s d) (hj : j < 4)
    (hreach : s.ip + j = d.toNat) : (fetchWords s)[j]? = some (s.mem.get d.toNat) := by
  obtain ⟨h0, hlt⟩ := hd
  rw [getElem?_fetchWords s hj, hreach, if_pos (by omega)]

/-! ### What an instruction writes -/

/-- An instruction leaves `MEM`, or writes one Word, to the cell its destination parameter names (R41, R46). -/
theorem exec_mem {i : Instr} {s t : State} (h : exec i s = .next t) :
    t.mem = s.mem ∨ ∃ d v, destination i = some d ∧ t.mem = s.mem.set d.toNat v := by
  rcases exec_cases h with (⟨d, r, hd, -, -, -, rfl⟩ | ⟨d, v, q, rfl, -, -, rfl⟩ | ⟨_, -, -, rfl⟩ |
    ⟨_, -, -, -, (rfl | ⟨-, -, rfl⟩)⟩ | ⟨-, rfl⟩) | ⟨_, -, rfl⟩
  case inl.inl => exact .inr ⟨d, r, hd, rfl⟩
  case inl.inr.inl => exact .inr ⟨d, v, rfl, rfl⟩
  all_goals exact .inl (by simp)

/-- Settles O48: the one write of `exec_mem` reaches no other cell, and without a destination there is none. -/
theorem onlyDestinationCellChanges : Obligations.OnlyDestinationCellChanges := by
  intro i s t h
  rcases exec_mem h with hm | ⟨d, v, hd, hm⟩
  · exact ⟨fun a _ => by rw [hm], fun _ => hm⟩
  · refine ⟨fun a ha => ?_, fun hnone => ?_⟩
    · rw [hm, get_set_ne _ _ _ _ (ha d hd)]
    · rw [hnone] at hd
      cases hd

/-! ### A store that completes -/

/-- A format `RRW` instruction whose operands are there and whose result is a Word stores it and advances. -/
theorem finish_binary_store {f : Word → Word → Except FaultRecord Word} {a b : Operand} {dst r : Word} {s : State}
    (hsrc : ∀ o ∈ [a, b], Readable s o) (hd : HasCell s dst) (hf : f (valueIn s a) (valueIn s b) = .ok r) :
    finish s (binary f a b dst s) = .next (advance (storeWord s dst.toNat r) 4) := by
  rw [binary_eq (hsrc a (by simp)) (hsrc b (by simp)) hd, hf, finish_ok]

theorem truthWord_decide (p : Prop) [Decidable p] : truthWord (decide p) = if p then 1 else 0 := by
  simp [truthWord]

/-- An instruction with a destination whose operands are all there completes: it stores its result and advances by its
width; besides, it may leave another `INQ`, which is what `IN` does. -/
theorem exec_store {i : Instr} {s : State} {d r : Word} (hdest : destination i = some d) (hd : HasCell s d)
    (hsrc : ∀ o ∈ sourceOperands i, Readable s o) (hr : storedResult s i = some r)
    (hw : s.xlen.holds r = true ∨ i = .input d) :
    ∃ q, exec i s = .next (advance (storeWord (setInq s q) d.toNat r) (ipAdvance i)) := by
  cases i with
  | add a b dst | mul a b dst =>
    cases hdest
    cases hr
    obtain hw | hw := hw
    · exact ⟨s.inq, finish_binary_store hsrc hd (narrow_ok hw)⟩
    · cases hw
  | lt a b dst | eq a b dst =>
    cases hdest
    cases hr
    exact ⟨s.inq, finish_binary_store hsrc hd (congrArg _ (truthWord_decide _))⟩
  | input dst =>
    cases hdest
    cases hq : s.inq with
    | nil => simp [storedResult, hq] at hr
    | cons v q =>
      obtain rfl : v = r := by simpa [storedResult, hq] using hr
      exact ⟨q, by simp [exec, execIn, input, writeAddr_ok hd, hq, ipAdvance]⟩
  | output _ | jt _ _ | jf _ _ | hlt => cases hdest

/-- A step whose instruction completes with `HALT = 0` is that instruction: the run goes on (R150). -/
theorem step_of_exec {i : Instr} {rest : List Word} {s u : State} (hrun : InRun s)
    (hdec : decode (fetchWords s) = .instr i rest) (hexec : exec i s = .next u) (hu : u.halt = false) :
    step s = .next u := by
  obtain ⟨hb, hh, he⟩ := hrun
  simp [step, hb, hh, he, hdec, hexec, hu]

/-- Settles O52: the step is the store of `exec_store`, and a fetch reads the cell stored to as it is in `MEM` then. -/
theorem storeIsSeenByNextFetch : Obligations.StoreIsSeenByNextFetch := by
  intro s i rest d r hrun hwf hdec hdest hd hsrc hr hw
  obtain ⟨q, hexec⟩ := exec_store hdest hd hsrc hr hw
  let t := advance (storeWord (setInq s q) d.toNat r) (ipAdvance i)
  have hcell : t.mem.get d.toNat = r := get_set_from hwf d.toNat r
  have hfetch : ∀ k j : Nat, j < 4 → k + j = d.toNat → (fetchWords (setIp t k))[j]? = some r :=
    fun k j hj hreach => hcell ▸ getElem?_fetchWords_of_hasCell (s := setIp t k) hd hj hreach
  refine ⟨t, step_of_exec hrun hdec hexec hrun.2.1, rfl, hrun, hfetch, fun hnext => ?_⟩
  have hip : t.ip + 0 = d.toNat := by
    rw [hnext]
    rfl
  rw [List.head?_eq_getElem?]
  exact hfetch t.ip 0 (by decide) hip

end Sys2Proof.Machine
end

section
/-! Decoding (spec/30_encoding.md R60 to R71): a list decodes to an instruction exactly when its first Word has the
opcode and the mode digits of the instruction and its parameter Words follow (`fields_of_decode`, `decode_of_fields`);
and the canonical Word of an instruction has that opcode and those digits (`fields_of_word`). -/

namespace Sys2Proof.Machine

/-! ### The mode digits of a list of modes, and the parameters of a list of roles -/

/-- The digits `D`, the first at 0, are those of the modes `ms` (R62, R81, R82). -/
def DigitsMatch (D : Nat → Int) (ms : List Mode) : Prop := ∀ j m, ms[j]? = some m → D j = m.digit

theorem DigitsMatch.nil (D : Nat → Int) : DigitsMatch D [] := fun j m h => by simp at h

theorem DigitsMatch.cons {D : Nat → Int} {m : Mode} {ms : List Mode} (h : D 0 = m.digit)
    (hs : DigitsMatch (fun j => D (j + 1)) ms) : DigitsMatch D (m :: ms)
  | 0, _, rfl => h
  | j + 1, m', hm => hs j m' hm

/-- Every role of `roles` has its Word among `ps` and a legal digit among `D` (R69, R88). -/
def LegalParams (D : Nat → Int) (ps : List Word) (roles : List Role) : Prop :=
  ∀ j r, roles[j]? = some r → (∃ p, ps[j]? = some p) ∧ legalDigit r (D j)

/-- The first Word is there, its digit is legal, and the other roles have the other Words. -/
theorem LegalParams.uncons {D : Nat → Int} {ps : List Word} {r : Role} {roles : List Role}
    (h : LegalParams D ps (r :: roles)) :
    ∃ p ps', ps = p :: ps' ∧ legalDigit r (D 0) ∧ LegalParams (fun j => D (j + 1)) ps' roles := by
  obtain ⟨⟨p, hp⟩, hdigit⟩ := h 0 r rfl
  cases ps with
  | nil => cases hp
  | cons p ps' => exact ⟨p, ps', rfl, hdigit, fun j r' hr => h (j + 1) r' hr⟩

/-- A digit is legal to read through when it names a mode (R69, R81, R82). -/
theorem legalDigit_read_iff (d : Int) : legalDigit .read d ↔ ∃ m : Mode, d = m.digit := by
  constructor
  · rintro (h | h)
    · exact ⟨.positional, h⟩
    · exact ⟨.immediate, h⟩
  · rintro ⟨_ | _, h⟩
    · exact .inl h
    · exact .inr h

/-- A legal first read parameter is an operand (R80). -/
theorem LegalParams.read {D : Nat → Int} {ps : List Word} {roles : List Role} (h : LegalParams D ps (.read :: roles)) :
    ∃ a : Operand, ∃ ps', ps = a.word :: ps' ∧ D 0 = a.mode.digit ∧
      LegalParams (fun j => D (j + 1)) ps' roles := by
  obtain ⟨p, ps', hps, hdigit, hs⟩ := h.uncons
  obtain ⟨m, hm⟩ := (legalDigit_read_iff _).1 hdigit
  exact ⟨⟨m, p⟩, ps', hps, hm, hs⟩

/-! ### What decodes to an instruction -/

/-- Format `RRW`: the fields are those of the instruction `mk` builds. -/
theorem fields_of_decodeRRW {w : Word} {ps rest : List Word} {i : Instr} {mk : Operand → Operand → Word → Instr}
    (h : decodeRRW w ps mk = .instr i rest)
    (hmk : ∀ a b dst, opcodeOf w = (mk a b dst).opcode ∧ (mk a b dst).params = [a.word, b.word, dst] ∧
      (mk a b dst).modes = [a.mode, b.mode, .positional]) :
    opcodeOf w = i.opcode ∧ ps = i.params ++ rest ∧ DigitsMatch (modeDigit w) i.modes := by
  obtain ⟨a, b, dst, rfl, rfl, h1, h2, h3⟩ := decodeRRW_instr h
  obtain ⟨hop, hparams, hmodes⟩ := hmk a b dst
  rw [hparams, hmodes]
  exact ⟨hop, rfl, .cons h1 (.cons h2 (.cons h3 (.nil _)))⟩

/-- Format `RR`: the fields are those of the instruction `mk` builds. -/
theorem fields_of_decodeRR {w : Word} {ps rest : List Word} {i : Instr} {mk : Operand → Operand → Instr}
    (h : decodeRR w ps mk = .instr i rest)
    (hmk : ∀ a b, opcodeOf w = (mk a b).opcode ∧ (mk a b).params = [a.word, b.word] ∧
      (mk a b).modes = [a.mode, b.mode]) :
    opcodeOf w = i.opcode ∧ ps = i.params ++ rest ∧ DigitsMatch (modeDigit w) i.modes := by
  obtain ⟨a, b, rfl, rfl, h1, h2⟩ := decodeRR_instr h
  obtain ⟨hop, hparams, hmodes⟩ := hmk a b
  rw [hparams, hmodes]
  exact ⟨hop, rfl, .cons h1 (.cons h2 (.nil _))⟩

/-- What decodes to an instruction has its opcode, its mode digits and its parameter Words (R60, R62, R67). -/
theorem fields_of_decode {w : Word} {ps rest : List Word} {i : Instr} (h : decode (w :: ps) = .instr i rest) :
    opcodeOf w = i.opcode ∧ ps = i.params ++ rest ∧ DigitsMatch (modeDigit w) i.modes := by
  rcases opcode_cases (opcodeOf w) with e | e | e | e | e | e | e | e | e | e
  · exact fields_of_decodeRRW ((decode_add e ps).symm.trans h) fun _ _ _ => ⟨e, rfl, rfl⟩
  · exact fields_of_decodeRRW ((decode_mul e ps).symm.trans h) fun _ _ _ => ⟨e, rfl, rfl⟩
  · rw [decode_input e] at h
    obtain ⟨dst, rfl, rfl, h1⟩ := decodeW_instr h
    exact ⟨e, rfl, .cons h1 (.nil _)⟩
  · rw [decode_output e] at h
    obtain ⟨a, rfl, rfl, h1⟩ := decodeR_instr h
    exact ⟨e, rfl, .cons h1 (.nil _)⟩
  · exact fields_of_decodeRR ((decode_jt e ps).symm.trans h) fun _ _ => ⟨e, rfl, rfl⟩
  · exact fields_of_decodeRR ((decode_jf e ps).symm.trans h) fun _ _ => ⟨e, rfl, rfl⟩
  · exact fields_of_decodeRRW ((decode_lt e ps).symm.trans h) fun _ _ _ => ⟨e, rfl, rfl⟩
  · exact fields_of_decodeRRW ((decode_eq e ps).symm.trans h) fun _ _ _ => ⟨e, rfl, rfl⟩
  · rw [decode_hlt e] at h
    cases h
    exact ⟨e, rfl, .nil _⟩
  · rw [decode_unknown e] at h
    cases h

theorem decodeRRW_of_digits {w : Word} {a b : Operand} {mk : Operand → Operand → Word → Instr}
    (h : DigitsMatch (modeDigit w) [a.mode, b.mode, .positional]) (dst : Word) (rest : List Word) :
    decodeRRW w (a.word :: b.word :: dst :: rest) mk = .instr (mk a b dst) rest := by
  rw [decodeRRW, withRead_cons ((modeOf_iff (mode1 w) _).2 (h 0 _ rfl)),
    withRead_cons ((modeOf_iff (mode2 w) _).2 (h 1 _ rfl)), withWrite_cons ((modeOf_iff (mode3 w) _).2 (h 2 _ rfl))]

theorem decodeRR_of_digits {w : Word} {a b : Operand} {mk : Operand → Operand → Instr}
    (h : DigitsMatch (modeDigit w) [a.mode, b.mode]) (rest : List Word) :
    decodeRR w (a.word :: b.word :: rest) mk = .instr (mk a b) rest := by
  rw [decodeRR, withRead_cons ((modeOf_iff (mode1 w) _).2 (h 0 _ rfl)),
    withRead_cons ((modeOf_iff (mode2 w) _).2 (h 1 _ rfl))]

theorem decodeR_of_digits {w : Word} {a : Operand} {mk : Operand → Instr}
    (h : DigitsMatch (modeDigit w) [a.mode]) (rest : List Word) :
    decodeR w (a.word :: rest) mk = .instr (mk a) rest :=
  withRead_cons ((modeOf_iff _ _).2 (h 0 _ rfl))

theorem decodeW_of_digits {w : Word} {mk : Word → Instr} (h : DigitsMatch (modeDigit w) [.positional]) (dst : Word)
    (rest : List Word) : decodeW w (dst :: rest) mk = .instr (mk dst) rest :=
  withWrite_cons ((modeOf_iff _ _).2 (h 0 _ rfl))

/-- A Word with the opcode and the mode digits of an instruction, then its parameter Words, decode to it. -/
theorem decode_of_fields {w : Word} {i : Instr} (hop : opcodeOf w = i.opcode)
    (hd : DigitsMatch (modeDigit w) i.modes) (rest : List Word) :
    decode (w :: (i.params ++ rest)) = .instr i rest := by
  cases i with
  | add a b dst => exact (decode_add hop _).trans (decodeRRW_of_digits hd dst rest)
  | mul a b dst => exact (decode_mul hop _).trans (decodeRRW_of_digits hd dst rest)
  | input dst => exact (decode_input hop _).trans (decodeW_of_digits hd dst rest)
  | output a => exact (decode_output hop _).trans (decodeR_of_digits hd rest)
  | jt cond target => exact (decode_jt hop _).trans (decodeRR_of_digits hd rest)
  | jf cond target => exact (decode_jf hop _).trans (decodeRR_of_digits hd rest)
  | lt a b dst => exact (decode_lt hop _).trans (decodeRRW_of_digits hd dst rest)
  | eq a b dst => exact (decode_eq hop _).trans (decodeRRW_of_digits hd dst rest)
  | hlt => exact decode_hlt hop rest

/-! ### The canonical Word -/

theorem opcode_bounds (i : Instr) : 0 < i.opcode ∧ i.opcode < 100 := by cases i <;> simp [Instr.opcode]

theorem modesNumber_nonneg (ms : List Mode) : 0 ≤ modesNumber ms := by
  induction ms with
  | nil => exact Int.le_refl 0
  | cons m ms ih =>
    have hm := m.digit_bounds
    rw [modesNumber]
    omega

/-- The decimal digits of the modes as a number are the modes' digits (R63). -/
theorem digitsMatch_modesNumber (ms : List Mode) : DigitsMatch (fun j => modesNumber ms / 10 ^ j % 10) ms := by
  induction ms with
  | nil => exact .nil _
  | cons m ms ih =>
    have hm := m.digit_bounds
    have hfirst : modesNumber (m :: ms) % 10 = m.digit := by
      rw [modesNumber]
      omega
    have hrest : modesNumber (m :: ms) / 10 = modesNumber ms := by
      rw [modesNumber]
      omega
    refine .cons (by simpa using hfirst) fun j m' hj => ?_
    calc modesNumber (m :: ms) / 10 ^ (j + 1) % 10
        = modesNumber (m :: ms) / 10 / 10 ^ j % 10 := by
          rw [pow_succ', Int.ediv_ediv_of_nonneg (by decide)]
      _ = modesNumber ms / 10 ^ j % 10 := by rw [hrest]
      _ = m'.digit := ih j m' hj

/-- On a nonnegative Word the mode digits are the decimal digits of the Word without its opcode (R10, R62). -/
theorem modeDigit_of_nonneg {w : Word} (h : 0 ≤ w) (k : Nat) : modeDigit w k = w / 100 / 10 ^ k % 10 := by
  have hpow : (10 : Int) ^ (k + 2) = 100 * 10 ^ k := by ring
  rw [modeDigit, Int.tdiv_eq_ediv_of_nonneg h, Int.tmod_eq_emod_of_nonneg (Int.ediv_nonneg h (by positivity)), hpow,
    Int.ediv_ediv_of_nonneg (by decide)]

/-- The canonical Word has the opcode and the mode digits of its instruction (R63, R71). -/
theorem fields_of_word (i : Instr) :
    opcodeOf i.word = i.opcode ∧ DigitsMatch (modeDigit i.word) i.modes := by
  obtain ⟨-, hop⟩ := opcode_bounds i
  have hms := modesNumber_nonneg i.modes
  have hw : 0 ≤ i.word := by
    rw [Instr.word]
    omega
  have hmodes : i.word / 100 = modesNumber i.modes := by
    rw [Instr.word]
    omega
  constructor
  · rw [opcodeOf, Int.tmod_eq_emod_of_nonneg hw, Instr.word]
    omega
  · intro j m hj
    rw [modeDigit_of_nonneg hw, hmodes]
    exact digitsMatch_modesNumber i.modes j m hj

/-- Settles O21: the canonical Word has the fields of its instruction, and those fields decode to it. -/
theorem decodeEncodeRoundTrip : Obligations.DecodeEncodeRoundTrip := by
  intro i rest
  obtain ⟨hop, hd⟩ := fields_of_word i
  exact decode_of_fields hop hd rest

/-! ### Legal Words and decoded instructions -/

/-- An opcode of the map and legal parameters are the fields of an instruction (R64, R67, R69). -/
theorem exists_instr_of_legalParams {op : Int} {D : Nat → Int} {ps : List Word} {f : Format}
    (hf : formatOf op = some f) (hl : LegalParams D ps f.roles) :
    ∃ (i : Instr) (rest : List Word), op = i.opcode ∧ i.format = f ∧ ps = i.params ++ rest ∧ DigitsMatch D i.modes := by
  unfold formatOf at hf
  split_ifs at hf with hrrw hw hr hrr hz <;> cases hf
  · obtain ⟨a, _, rfl, ha, hl⟩ := hl.read
    obtain ⟨b, _, rfl, hb, hl⟩ := hl.read
    obtain ⟨dst, rest, rfl, hd, -⟩ := hl.uncons
    have hdigits : DigitsMatch D [a.mode, b.mode, .positional] := .cons ha (.cons hb (.cons hd (.nil _)))
    obtain rfl | rfl | rfl | rfl := hrrw
    · exact ⟨.add a b dst, rest, rfl, rfl, rfl, hdigits⟩
    · exact ⟨.mul a b dst, rest, rfl, rfl, rfl, hdigits⟩
    · exact ⟨.lt a b dst, rest, rfl, rfl, rfl, hdigits⟩
    · exact ⟨.eq a b dst, rest, rfl, rfl, rfl, hdigits⟩
  · obtain ⟨dst, rest, rfl, hd, -⟩ := hl.uncons
    exact ⟨.input dst, rest, hw, rfl, rfl, .cons hd (.nil _)⟩
  · obtain ⟨a, rest, rfl, ha, -⟩ := hl.read
    exact ⟨.output a, rest, hr, rfl, rfl, .cons ha (.nil _)⟩
  · obtain ⟨a, _, rfl, ha, hl⟩ := hl.read
    obtain ⟨b, rest, rfl, hb, -⟩ := hl.read
    have hdigits : DigitsMatch D [a.mode, b.mode] := .cons ha (.cons hb (.nil _))
    obtain rfl | rfl := hrr
    · exact ⟨.jt a b, rest, rfl, rfl, rfl, hdigits⟩
    · exact ⟨.jf a b, rest, rfl, rfl, rfl, hdigits⟩
  · exact ⟨.hlt, ps, hz, rfl, rfl, .nil _⟩

theorem length_params (i : Instr) : i.params.length = i.format.roles.length := by cases i <;> rfl

/-- Settles O19: legal parameters are the fields of an instruction, and those fields decode to it. -/
theorem decodeAcceptsLegalWords : Obligations.DecodeAcceptsLegalWords := by
  intro w ps f hf hl
  obtain ⟨i, rest, hop, rfl, rfl, hd⟩ := exists_instr_of_legalParams hf hl
  refine ⟨i, ?_, hop.symm, rfl, ?_, fun j m hj => (hd j m hj).symm⟩
  · rw [← length_params, List.drop_left]
    exact decode_of_fields hop hd rest
  · rw [← length_params, List.take_left]

/-- A Word with a positive opcode is not negative (D3): the truncated remainder has the sign of the Word (R10). -/
theorem nonneg_of_opcodeOf_pos {w : Word} (h : 0 < opcodeOf w) : 0 ≤ w := by
  refine Int.not_lt.1 fun hw => ?_
  have hneg : 0 ≤ Int.tmod (-w) 100 := Int.tmod_nonneg 100 (Int.neg_nonneg_of_nonpos hw.le)
  rw [Int.neg_tmod, ← opcodeOf] at hneg
  omega

/-- Settles O20: what decodes has the fields of its instruction, and every opcode is positive. -/
theorem decodedInstructionMatchesWord : Obligations.DecodedInstructionMatchesWord := by
  intro w ps rest i h
  obtain ⟨hop, hps, hd⟩ := fields_of_decode h
  have hpos : 0 < opcodeOf w := by
    rw [hop]
    exact Int.natCast_pos.2 (opcode_bounds i).1
  exact ⟨nonneg_of_opcodeOf_pos hpos, hop, hps, hd⟩

end Sys2Proof.Machine
end

section
/-! The fetch and the operand resolver (spec/40 R83 to R87): a rejection of the decode phase is the step's fault
(`step_of_reject`), and past the end of memory the decode phase has no Word to look at (`fetchWords_of_le`). -/

namespace Sys2Proof.Machine

/-! ### The fetch -/

/-- From the end of memory on there is no cell to fetch. -/
theorem fetchWords_of_le {s : State} (h : s.n ≤ s.ip) : fetchWords s = [] :=
  if_neg (Nat.not_lt.2 h)

/-- The first Word fetched is the one `IP` names. -/
theorem head?_fetchWords_of_lt {s : State} (h : s.ip < s.n) : (fetchWords s).head? = some (s.mem.get s.ip) := by
  rw [List.head?_eq_getElem?, getElem?_fetchWords s (by decide), Nat.add_zero, if_pos h]

/-- A step whose Words the decoder rejects takes that rejection's fault (R87, R88). -/
theorem step_of_reject {s : State} {r : Reject} (hrun : InRun s) (hdec : decode (fetchWords s) = .reject r) :
    step s = .next (withFault (rejectRecord s r) s) := by
  obtain ⟨hb, hh, he⟩ := hrun
  simp only [step, hb, hh, he, hdec, takeFault_eq]

/-- Settles O15: past the end the instruction Word itself, the Word at `ip0 + 0`, is the missing one. -/
theorem fetchIsBoundsChecked : Obligations.FetchIsBoundsChecked := by
  intro s hrun
  refine ⟨fun hpast => ?_, head?_fetchWords_of_lt⟩
  have hmissing : decode (fetchWords s) = .reject (.missing 0) := by
    rw [fetchWords_of_le hpast]
    rfl
  exact step_of_reject hrun hmissing

/-! ### The operand resolver -/

/-- Settles O24: an immediate is readable in every state, and a positional operand exactly when its cell exists. -/
theorem operandResolver : Obligations.OperandResolver := by
  intro s p
  have himmediate : Readable s ⟨.immediate, p⟩ := fun h => nomatch h
  refine ⟨readOperand_ok himmediate, fun hcell => ?_, fun hcell => ?_⟩
  · have hread : Readable s ⟨.positional, p⟩ := fun _ => hcell
    exact ⟨readOperand_ok hread, writeAddr_ok hcell⟩
  · have hread : ¬ Readable s ⟨.positional, p⟩ := fun h => hcell (h rfl)
    exact ⟨readOperand_error hread, writeAddr_error hcell⟩

end Sys2Proof.Machine
end

section
/-! Arithmetic (spec/41_arithmetic.md R100 to R102): the next state of `ADD` and of `MUL` as one store of the exact result
(`exec_add`, `exec_mul`), and what such a store leaves unchanged (`storedAndAdvanced_of_hasCell`). -/

namespace Sys2Proof.Machine

/-- The commit of R91 for any width: one cell gets the Word, `IP` advances, all else stays. -/
theorem storedAndAdvanced_of_hasCell {s : State} {d : Word} (hd : HasCell s d) (r : Word) (k : Nat) :
    StoredAndAdvanced d.toNat r k s (advance (storeWord s d.toNat r) k) := by
  obtain ⟨hnonneg, hlt⟩ := hd
  have hbound : d.toNat < s.n := by omega
  refine ⟨fun hwf => ⟨get_set_from hwf d.toNat r, set_wf hwf hbound r⟩, fun a ha => ?_, rfl, ?_⟩
  · exact get_set_ne s.mem d.toNat a r ha
  · simp [SameButMemIp]

section
variable {s : State} {a b : Operand} {dst : Word}

/-- `ADD` whose exact sum is a Word stores that sum (R100). -/
theorem exec_add (ha : Readable s a) (hb : Readable s b) (hd : HasCell s dst)
    (hsum : s.xlen.holds (valueIn s a + valueIn s b) = true) :
    exec (.add a b dst) s = .next (advance (storeWord s dst.toNat (valueIn s a + valueIn s b)) 4) :=
  finish_binary_store (by simp [ha, hb]) hd (narrow_ok hsum)

/-- `MUL` whose exact signed product is a Word stores that product (R101). -/
theorem exec_mul (ha : Readable s a) (hb : Readable s b) (hd : HasCell s dst)
    (hprod : s.xlen.holds (valueIn s a * valueIn s b) = true) :
    exec (.mul a b dst) s = .next (advance (storeWord s dst.toNat (valueIn s a * valueIn s b)) 4) :=
  finish_binary_store (by simp [ha, hb]) hd (narrow_ok hprod)

/-- `ADD` with its read operands exchanged ends in the same state, whether it completes or overflows (R102). -/
theorem exec_add_comm (ha : Readable s a) (hb : Readable s b) (hd : HasCell s dst) :
    exec (.add a b dst) s = exec (.add b a dst) s := by
  simp only [exec, execAdd, binary_eq ha hb hd, binary_eq hb ha hd, Int.add_comm]

/-- `MUL` with its read operands exchanged ends in the same state, whether it completes or overflows (R102). -/
theorem exec_mul_comm (ha : Readable s a) (hb : Readable s b) (hd : HasCell s dst) :
    exec (.mul a b dst) s = exec (.mul b a dst) s := by
  simp only [exec, execMul, binary_eq ha hb hd, binary_eq hb ha hd, Int.mul_comm]

end

/-- Settles O25: `ADD` is the store of its exact sum, which is what a store leaves. -/
theorem addStoresSum : Obligations.AddStoresSum :=
  fun _ _ _ _ ha hb hd hsum => ⟨_, exec_add ha hb hd hsum, storedAndAdvanced_of_hasCell hd _ 4⟩

/-- Settles O26: `MUL` is the store of its exact product, which is what a store leaves. -/
theorem mulStoresProduct : Obligations.MulStoresProduct :=
  fun _ _ _ _ ha hb hd hprod => ⟨_, exec_mul ha hb hd hprod, storedAndAdvanced_of_hasCell hd _ 4⟩

/-- Settles O28: the state that `addStoresSum` and `mulStoresProduct` give is also that of the exchanged operands. -/
theorem arithmeticIsExactAndCommutative : Obligations.ArithmeticIsExactAndCommutative := by
  intro s a b dst hwf ha hb hd
  refine ⟨fun hsum => ?_, fun hprod => ?_⟩
  · obtain ⟨t, hexec, hcell, hframe⟩ := addStoresSum s a b dst ha hb hd hsum
    exact ⟨t, hexec, (exec_add_comm hb ha hd).trans hexec, (hcell hwf).1, hframe⟩
  · obtain ⟨t, hexec, hcell, hframe⟩ := mulStoresProduct s a b dst ha hb hd hprod
    exact ⟨t, hexec, (exec_mul_comm hb ha hd).trans hexec, (hcell hwf).1, hframe⟩

end Sys2Proof.Machine
end

section
/-! Input and output (spec/42_io.md R110 to R113; R25, R26): the next state of `IN` and of `OUT` (`exec_input`,
`exec_output`), what a run does to the queues (`step_queuesAdvance`), and that `SUSP` only decides where a run stops
(`step_withSusp`). -/

namespace Sys2Proof.Machine

/-! ### The instructions -/

/-- `IN` with its destination there and a value queued moves that value (R110). -/
theorem exec_input {s : State} {dst v : Word} {q : List Word} (hq : s.inq = v :: q) (hd : HasCell s dst) :
    exec (.input dst) s = .next (advance (storeWord (setInq s q) dst.toNat v) 2) := by
  simp only [exec, execIn, input, writeAddr_ok hd, hq, finish_ok]

/-- `OUT` of a readable operand appends its value and touches no more than `IP` and, under `SUSP = 1`, `HALT` (R111). -/
theorem exec_output {s : State} {a : Operand} (ha : Readable s a) :
    exec (.output a) s =
      .next { s with outq := s.outq ++ [valueIn s a], ip := s.ip + 2, halt := s.halt || s.susp } := by
  simp only [exec, execOut, output, readOperand_ok ha, finish_ok, haltWhenSuspending_eq]
  rfl

/-- `OUT` of an unreadable operand faults (R111). -/
theorem exec_output_fault {s : State} {a : Operand} (ha : ¬ Readable s a) :
    exec (.output a) s = .next (withFault (.outOfBounds a.word s.ip) s) := by
  simp only [exec, execOut, output, readOperand_error ha, finish_error, takeFault_eq]

/-- Settles O33: `IN` is a store at width 2 into the state whose `INQ` has lost its head. -/
theorem inStoresHeadOfQueue : Obligations.InStoresHeadOfQueue := by
  intro s dst v q hq hd
  obtain ⟨hcell, hrest, hip, hsame⟩ := storedAndAdvanced_of_hasCell (s := setInq s q) hd v 2
  exact ⟨_, exec_input hq hd, rfl, fun hwf => (hcell hwf).1, hrest, hip, hsame⟩

/-- Settles O35: the operand is readable or it is not. -/
theorem outAppendsValue : Obligations.OutAppendsValue :=
  fun _ _ => ⟨exec_output, exec_output_fault⟩

/-! ### The queues of a run -/

/-- Of `INQ` a tail is left, and `OUTQ` is extended behind what it held (R25, R26). -/
def QueuesAdvance (s t : State) : Prop := t.inq <:+ s.inq ∧ s.outq <+: t.outq

theorem QueuesAdvance.refl (s : State) : QueuesAdvance s s := ⟨List.suffix_rfl, List.prefix_rfl⟩

theorem QueuesAdvance.trans {s t u : State} (h : QueuesAdvance s t) (h' : QueuesAdvance t u) : QueuesAdvance s u :=
  ⟨h'.1.trans h.1, h.2.trans h'.2⟩

theorem exec_queuesAdvance {i : Instr} {s t : State} (h : exec i s = .next t) : QueuesAdvance s t := by
  constructor
  · rcases exec_inq h with hq | ⟨-, v, hq⟩
    · rw [hq]
    · exact ⟨[v], hq.symm⟩
  · rcases exec_outq h with hq | ⟨a, -, hq⟩
    · rw [hq]
    · exact ⟨_, hq.symm⟩

/-- Only the instruction of a step reaches the queues. -/
theorem step_queuesAdvance {s t : State} (h : step s = .next t) : QueuesAdvance s t := by
  rcases step_cases h with ⟨-, rfl⟩ | ⟨-, r, -, rfl⟩ | ⟨-, i, rest, u, -, hu, rfl⟩ | ⟨-, -, rfl⟩
  · exact .refl _
  · exact .refl s
  · obtain ⟨-, -, -, hinq, houtq, -, -⟩ := loopTest_keeps i u
    rw [QueuesAdvance, hinq, houtq]
    exact exec_queuesAdvance hu
  · exact .refl s

/-- Settles O55, by induction over the steps of the run. -/
theorem runConsumesOldestInput : Obligations.RunConsumesOldestInput := by
  intro fuel s t hrun
  have hadvance : QueuesAdvance s t :=
    runLoop_induction QueuesAdvance.refl (fun _ _ _ _ hstep hrest => (step_queuesAdvance hstep).trans hrest) hrun
  obtain ⟨⟨taken, hin⟩, written, hout⟩ := hadvance
  exact ⟨⟨taken, hin.symm⟩, written, hout.symm⟩

/-! ### What does not look at `SUSP` -/

/-- The same machine, loaded with another `SUSP` (R27). -/
def withSusp (c : Bool) (s : State) : State := { s with susp := c }

@[simp] theorem withSusp_inq (c : Bool) (s : State) : (withSusp c s).inq = s.inq := rfl
@[simp] theorem withSusp_halt (c : Bool) (s : State) : (withSusp c s).halt = s.halt := rfl

theorem finish_withSusp (c : Bool) {s t : State} {r : Except FaultRecord State} (h : finish s r = .next t) :
    finish (withSusp c s) (r.map (withSusp c)) = .next (withSusp c t) := by
  cases r <;> cases h <;> rfl

theorem readOperand_withSusp (c : Bool) (s : State) (o : Operand) :
    readOperand (withSusp c s) o = readOperand s o := rfl

theorem valueIn_withSusp (c : Bool) (s : State) (o : Operand) : valueIn (withSusp c s) o = valueIn s o := rfl

theorem writeAddr_withSusp (c : Bool) (s : State) (p : Word) : writeAddr (withSusp c s) p = writeAddr s p := rfl

theorem binary_withSusp (c : Bool) (f : Word → Word → Except FaultRecord Word) (a b : Operand) (dst : Word)
    (s : State) : binary f a b dst (withSusp c s) = (binary f a b dst s).map (withSusp c) := by
  simp only [binary, readOperand_withSusp, writeAddr_withSusp]
  cases readOperand s a with
  | error e => rfl
  | ok va =>
    cases readOperand s b with
    | error e => rfl
    | ok vb =>
      cases writeAddr s dst with
      | error e => rfl
      | ok d =>
        dsimp only
        cases f va vb <;> rfl

theorem jumpTo_withSusp (c : Bool) (s : State) (t : Word) :
    jumpTo (withSusp c s) t = (jumpTo s t).map (withSusp c) := by
  unfold jumpTo
  split <;> rfl

theorem jumpWhen_withSusp (c : Bool) (taken : Word → Bool) (cond target : Operand) (s : State) :
    jumpWhen taken cond target (withSusp c s) = (jumpWhen taken cond target s).map (withSusp c) := by
  simp only [jumpWhen, readOperand_withSusp, jumpTo_withSusp]
  cases readOperand s cond with
  | error e => rfl
  | ok v =>
    dsimp only
    cases taken v with
    | false => rfl
    | true => cases readOperand s target <;> rfl

theorem input_withSusp (c : Bool) (dst : Word) (s : State) :
    input dst (withSusp c s) = (input dst s).map (withSusp c) := by
  simp only [input, writeAddr_withSusp, withSusp_inq]
  cases writeAddr s dst with
  | error e => rfl
  | ok d => cases s.inq <;> rfl

/-- No instruction but `OUT` looks at `SUSP` (R113). -/
theorem exec_withSusp (c : Bool) {i : Instr} {s t : State} (hi : ∀ a, i ≠ .output a) (h : exec i s = .next t) :
    exec i (withSusp c s) = .next (withSusp c t) := by
  cases i with
  | add a b dst | mul a b dst | lt a b dst | eq a b dst =>
    exact (congrArg _ (binary_withSusp ..)).trans (finish_withSusp c h)
  | jt cond target | jf cond target =>
    exact (congrArg _ (jumpWhen_withSusp ..)).trans (finish_withSusp c h)
  | input dst => exact (congrArg _ (input_withSusp ..)).trans (finish_withSusp c h)
  | output a => exact absurd rfl (hi a)
  | hlt =>
    cases h
    rfl

theorem loopTest_withSusp (c : Bool) (i : Instr) (t : State) :
    loopTest i (withSusp c t) = withSusp c (loopTest i t) := by
  unfold loopTest
  rw [withSusp_halt]
  split <;> rfl

/-! ### The step of `OUT` and the others -/

/-- A step inside a run executes the decoded instruction and then tests `HALT` (R150). -/
theorem step_of_exec_loopTest {i : Instr} {rest : List Word} {s u : State} (hrun : InRun s)
    (hdec : decode (fetchWords s) = .instr i rest) (hexec : exec i s = .next u) : step s = .next (loopTest i u) := by
  obtain ⟨hb, hh, he⟩ := hrun
  simp only [step, hb, hh, he, hdec, hexec]

/-- A step that executes no `OUT` is the same under either `SUSP`. -/
theorem step_withSusp (c : Bool) {s t : State} (hrun : InRun s)
    (hout : ∀ a rest, decode (fetchWords s) ≠ .instr (.output a) rest) (h : step s = .next t) :
    step (withSusp c s) = .next (withSusp c t) := by
  have hrun' : InRun (withSusp c s) := hrun
  rcases step_cases h with ⟨hb, -⟩ | ⟨-, r, hdec, rfl⟩ | ⟨-, i, rest, u, hdec, hu, rfl⟩ | ⟨-, hn, -⟩
  · simp [hrun.1] at hb
  · exact step_of_reject hrun' hdec
  · have hi : ∀ a, i ≠ .output a := fun a hia => hout a rest (hia ▸ hdec)
    rw [← loopTest_withSusp]
    exact step_of_exec_loopTest hrun' hdec (exec_withSusp c hi hu)
  · exact absurd hrun hn

/-- Under `SUSP = 0` an `OUT` is one step of a run that goes on (R111). -/
theorem step_output {s : State} {a : Operand} {rest : List Word} (hrun : InRun s) (hs : s.susp = false)
    (hdec : decode (fetchWords s) = .instr (.output a) rest) (ha : Readable s a) :
    step s = .next { s with outq := s.outq ++ [valueIn s a], ip := s.ip + 2 } := by
  have hhalt : (s.halt || s.susp) = s.halt := by rw [hs, Bool.or_false]
  have hexec := exec_output ha
  rw [hhalt] at hexec
  exact step_of_exec hrun hdec hexec hrun.2.1

/-- Under `SUSP = 1` an `OUT` ends the run by suspension (R113). -/
theorem step_output_suspends {s : State} {a : Operand} {rest : List Word} (hrun : InRun s) (hs : s.susp = true)
    (hdec : decode (fetchWords s) = .instr (.output a) rest) (ha : Readable s a) :
    step s = .next (endRun .suspend { s with outq := s.outq ++ [valueIn s a], ip := s.ip + 2 }) := by
  rw [step_of_exec_loopTest hrun hdec (exec_output ha), hs, Bool.or_true]
  rfl

/-- An `OUT` that cannot read its operand ends the run by its fault (R111, R177). -/
theorem step_output_fault {s : State} {a : Operand} {rest : List Word} (hrun : InRun s)
    (hdec : decode (fetchWords s) = .instr (.output a) rest) (ha : ¬ Readable s a) :
    step s = .next (withFault (.outOfBounds a.word s.ip) s) :=
  step_of_exec hrun hdec (exec_output_fault ha) hrun.2.1

/-! ### Suspension cuts a run -/

/-- The running machine without suspension that goes on from where `t` was stopped, `c` being its `STOP`. -/
def continuedFrom (c : StopCause) (t : State) : State := { t with susp := false, busy := true, stop := c }

/-- One step under `SUSP = 1` beside the same machine's under `SUSP = 0`: while the run goes on they are the same, and
where it ends by suspension the other machine goes on. A step without an `OUT` ends no run by suspension, since the
machine under `SUSP = 0` takes it too. -/
theorem step_unsuspended {s t : State} (hrun : InRun s) (hs : s.susp = true) (h : step s = .next t) :
    (InRun t ∧ t.susp = true ∧ t.stop = s.stop ∧ step (withSusp false s) = .next (withSusp false t)) ∨
      (t.busy = false ∧ (t.stop = .suspend → step (withSusp false s) = .next (continuedFrom s.stop t))) := by
  have hrun' : InRun (withSusp false s) := hrun
  by_cases hout : ∃ a rest, decode (fetchWords s) = .instr (.output a) rest
  · obtain ⟨a, rest, hdec⟩ := hout
    by_cases ha : Readable s a
    · cases (step_output_suspends hrun hs hdec ha).symm.trans h
      obtain ⟨hb, hh, -⟩ := hrun
      refine .inr ⟨rfl, fun _ => (step_output hrun' rfl hdec ha).trans ?_⟩
      rw [valueIn_withSusp]
      simp [withSusp, continuedFrom, endRun, hb, hh]
    · cases (step_output_fault hrun hdec ha).symm.trans h
      exact .inr ⟨rfl, fun hstop => nomatch hstop⟩
  · have hsame := step_withSusp false hrun (fun a rest hdec => hout ⟨a, rest, hdec⟩) h
    obtain ⟨-, hkeep, -⟩ := stepKeepsConstants s t h
    rcases step_inRun hrun' hsame with ⟨ht, hstop, -⟩ | ⟨hb, -, ⟨hc, -⟩ | ⟨hc, -⟩ | ⟨-, hsusp, -⟩⟩
    · exact .inl ⟨ht, hkeep.trans hs, hstop, hsame⟩
    · exact .inr ⟨hb, fun hstop => nomatch hc.symm.trans hstop⟩
    · exact .inr ⟨hb, fun hstop => nomatch hc.symm.trans hstop⟩
    · cases hsusp

/-- A step first, then the rest of the steps. -/
theorem core_run_succ {s t : State} (h : step s = .next t) (k : Nat) :
    Host.Core.run Sys2Proof.core (k + 1) s = Host.Core.run Sys2Proof.core k t := by
  have hcore : Sys2Proof.core.step s = .next t := h
  simp only [Host.Core.run, hcore]

/-- A run that ends by suspension, step by step beside the run of the machine without suspension. -/
theorem run_unsuspended {fuel : Nat} {s u : State} (hrun : InRun s) (hs : s.susp = true)
    (h : runLoop fuel s = some u) (hu : u.stop = .suspend) :
    ∃ k, 0 < k ∧ k ≤ fuel ∧
      Host.Core.run Sys2Proof.core k (withSusp false s) = .next (continuedFrom s.stop u) := by
  induction fuel generalizing s with
  | zero =>
    rw [runLoop_zero hrun.1] at h
    cases h
  | succ fuel ih =>
    rcases runLoop_cases h with ⟨hb, -⟩ | ⟨_, t, hfuel, -, hstep, hrest⟩
    · simp [hrun.1] at hb
    · cases hfuel
      rcases step_unsuspended hrun hs hstep with ⟨ht, hts, hstop, hsame⟩ | ⟨hidle, hcut⟩
      · obtain ⟨k, -, hle, hcore⟩ := ih ht hts hrest
        rw [hstop] at hcore
        exact ⟨k + 1, by omega, by omega, (core_run_succ hsame k).trans hcore⟩
      · rw [runLoop_idle hidle] at hrest
        cases hrest
        exact ⟨1, by decide, by omega, core_run_succ (hcut hu) 0⟩

/-- Settles O56: `withSusp` and `continuedFrom` name the two machines of the statement. -/
theorem suspensionOnlyCutsTheRun : Obligations.SuspensionOnlyCutsTheRun :=
  fun _ _ _ => run_unsuspended

end Sys2Proof.Machine
end

section
/-! Comparison (spec/44_compare.md R130 to R132): the next state of `LT` and of `EQ` as one store of 1 or 0 (`exec_lt`,
`exec_eq`); that a jump with readable operands and a target that is not negative only sets `IP` (`exec_jt`, `exec_jf`);
and that the 1 or 0 stored is a Word any later instruction reads from its cell (`HoldsTruth`). -/

namespace Sys2Proof.Machine

/-! ### The instructions -/

/-- `LT` stores whether `a < b` as signed integers, and has no result to overflow (R130). -/
theorem exec_lt {s : State} {a b : Operand} {dst : Word} (ha : Readable s a) (hb : Readable s b)
    (hd : HasCell s dst) : exec (.lt a b dst) s =
      .next (advance (storeWord s dst.toNat (if valueIn s a < valueIn s b then 1 else 0)) 4) :=
  finish_binary_store (by simp [ha, hb]) hd (congrArg _ (truthWord_decide _))

/-- `EQ` stores whether the whole Words are equal (R131). -/
theorem exec_eq {s : State} {a b : Operand} {dst : Word} (ha : Readable s a) (hb : Readable s b)
    (hd : HasCell s dst) : exec (.eq a b dst) s =
      .next (advance (storeWord s dst.toNat (if valueIn s a = valueIn s b then 1 else 0)) 4) :=
  finish_binary_store (by simp [ha, hb]) hd (congrArg _ (truthWord_decide _))

/-- Settles O29: `LT` is the store of its truth value, which is what a store leaves. -/
theorem ltStoresTruth : Obligations.LtStoresTruth :=
  fun _ _ _ _ ha hb hd => ⟨_, exec_lt ha hb hd, storedAndAdvanced_of_hasCell hd _ 4⟩

/-- Settles O30: `EQ` is the store of its truth value, which is what a store leaves. -/
theorem eqStoresTruth : Obligations.EqStoresTruth :=
  fun _ _ _ _ ha hb hd => ⟨_, exec_eq ha hb hd, storedAndAdvanced_of_hasCell hd _ 4⟩

/-! ### Jumps -/

/-- A jump instruction with both operands readable and a target that is not negative goes to the target or past itself
(R120, R121, R123). -/
theorem jumpWhen_eq {taken : Word → Bool} {cond target : Operand} {s : State} (hc : Readable s cond)
    (ht : Readable s target) (hn : 0 ≤ valueIn s target) :
    jumpWhen taken cond target s =
      .ok (setIp s (if taken (valueIn s cond) then (valueIn s target).toNat else s.ip + 3)) := by
  cases htaken : taken (valueIn s cond) with
  | false => simp [jumpWhen, readOperand_ok hc, htaken, advance]
  | true => simp [jumpWhen, readOperand_ok hc, readOperand_ok ht, jumpTo_nonneg hn, htaken]

/-- `JT` jumps when the condition is not 0 (R120). -/
theorem exec_jt {cond target : Operand} {s : State} (hc : Readable s cond) (ht : Readable s target)
    (hn : 0 ≤ valueIn s target) : exec (.jt cond target) s =
      .next (setIp s (if valueIn s cond ≠ 0 then (valueIn s target).toNat else s.ip + 3)) := by
  simp only [exec, execJt, jumpWhen_eq hc ht hn, finish_ok, decide_eq_true_eq]

/-- `JF` jumps when the condition is 0 (R121). -/
theorem exec_jf {cond target : Operand} {s : State} (hc : Readable s cond) (ht : Readable s target)
    (hn : 0 ≤ valueIn s target) : exec (.jf cond target) s =
      .next (setIp s (if valueIn s cond = 0 then (valueIn s target).toNat else s.ip + 3)) := by
  simp only [exec, execJf, jumpWhen_eq hc ht hn, finish_ok, decide_eq_true_eq]

/-! ### The truth value stored -/

/-- A positional operand that names a cell is readable (R83). -/
theorem readable_of_hasCell {s : State} {d : Word} (h : HasCell s d) : Readable s ⟨.positional, d⟩ := fun _ => h

/-- Address `d` names a cell, and the cell holds a truth value (R130, R131). -/
def HoldsTruth (d : Word) (t : State) : Prop :=
  HasCell t d ∧ (t.mem.get d.toNat = 0 ∨ t.mem.get d.toNat = 1)

/-- The cell stored to reads as the Word stored, memory being canonical before. -/
theorem StoredAndAdvanced.get_eq {s t : State} {d : Nat} {r : Word} {k : Nat} (h : StoredAndAdvanced d r k s t)
    (hwf : s.mem.wf s.n = true) : t.mem.get d = r := by
  obtain ⟨hcell, -⟩ := h
  exact (hcell hwf).1

/-- What a comparison stores is a truth value in its destination. -/
theorem StoredAndAdvanced.holdsTruth {s t : State} {d : Word} {k : Nat} {p : Prop} [Decidable p]
    (h : StoredAndAdvanced d.toNat (if p then 1 else 0) k s t) (hwf : s.mem.wf s.n = true) (hd : HasCell s d) :
    HoldsTruth d t := by
  have hget := h.get_eq hwf
  obtain ⟨-, -, -, -, hn, -⟩ := h
  refine ⟨by rwa [HasCell, hn], ?_⟩
  rw [hget]
  exact (ite_eq_or_eq p 1 0).symm

/-- `JT` on a cell with a truth value jumps when that is 1 (R120, R132). -/
theorem exec_jt_of_holdsTruth {d : Word} {t : State} {target : Operand} (h : HoldsTruth d t)
    (ht : Readable t target) (hn : 0 ≤ valueIn t target) : exec (.jt ⟨.positional, d⟩ target) t =
      .next (setIp t (if t.mem.get d.toNat = 1 then (valueIn t target).toNat else t.ip + 3)) := by
  obtain ⟨hd, htruth⟩ := h
  have hne : t.mem.get d.toNat ≠ 0 ↔ t.mem.get d.toNat = 1 :=
    ⟨htruth.resolve_left, fun h => h.trans_ne (by decide)⟩
  rw [exec_jt (readable_of_hasCell hd) ht hn]
  simp only [valueIn, hne]

/-- Of the truth values of less, equal and greater exactly one is 1, the others are 0 (R132). -/
theorem truth_trichotomy {a b less equal greater : Word} (hless : less = if a < b then 1 else 0)
    (hequal : equal = if a = b then 1 else 0) (hgreater : greater = if b < a then 1 else 0) :
    less = 1 ∧ equal = 0 ∧ greater = 0 ∨ less = 0 ∧ equal = 1 ∧ greater = 0 ∨
      less = 0 ∧ equal = 0 ∧ greater = 1 := by
  rcases lt_trichotomy a b with h | h | h
  · exact .inl ⟨hless.trans (if_pos h), hequal.trans (if_neg h.ne), hgreater.trans (if_neg h.not_gt)⟩
  · exact .inr (.inl ⟨hless.trans (if_neg h.not_lt), hequal.trans (if_pos h), hgreater.trans (if_neg h.not_gt)⟩)
  · exact .inr (.inr ⟨hless.trans (if_neg h.not_gt), hequal.trans (if_neg h.ne'), hgreater.trans (if_pos h)⟩)

/-- Settles O31: the five comparisons store what `ltStoresTruth` and `eqStoresTruth` say, so the laws are those of the
order of the two values; and each leaves a truth value in a cell that exists, which is all a later instruction needs. -/
theorem comparisonLaws : Obligations.ComparisonLaws := by
  intro s x y dst hwf hx hy hd
  obtain ⟨lxy, elxy, hlxy⟩ := ltStoresTruth s x y dst hx hy hd
  obtain ⟨exy, eexy, hexy⟩ := eqStoresTruth s x y dst hx hy hd
  obtain ⟨lyx, elyx, hlyx⟩ := ltStoresTruth s y x dst hy hx hd
  obtain ⟨eyx, eeyx, heyx⟩ := eqStoresTruth s y x dst hy hx hd
  obtain ⟨lxx, elxx, hlxx⟩ := ltStoresTruth s x x dst hx hx hd
  refine ⟨lxy, exy, lyx, eyx, lxx, elxy, eexy, elyx, eeyx, elxx, ⟨?_, ?_, ?_⟩, fun t ht => ?_⟩
  · exact truth_trichotomy (hlxy.get_eq hwf) (hexy.get_eq hwf) (hlyx.get_eq hwf)
  · exact (hlxx.get_eq hwf).trans (if_neg (lt_irrefl _))
  · calc exy.mem.get dst.toNat = if valueIn s x = valueIn s y then 1 else 0 := hexy.get_eq hwf
      _ = if valueIn s y = valueIn s x then 1 else 0 := if_congr eq_comm rfl rfl
      _ = eyx.mem.get dst.toNat := (heyx.get_eq hwf).symm
  · have htruth : HoldsTruth dst t := by
      simp only [List.mem_cons, List.not_mem_nil, or_false] at ht
      rcases ht with rfl | rfl | rfl | rfl | rfl
      · exact hlxy.holdsTruth hwf hd
      · exact hexy.holdsTruth hwf hd
      · exact hlyx.holdsTruth hwf hd
      · exact heyx.holdsTruth hwf hd
      · exact hlxx.holdsTruth hwf hd
    have hread := readable_of_hasCell htruth.1
    refine ⟨fun target htarget hn => ⟨exec_jt_of_holdsTruth htruth htarget hn, exec_jf hread htarget hn⟩, ?_⟩
    exact fun b d hb hcell => ⟨addStoresSum t _ b d hread hb hcell, mulStoresProduct t _ b d hread hb hcell⟩

end Sys2Proof.Machine
end

section
/-! Run control and the host (spec/46_run_control_and_host.md R150 to R165): what a performed host operation can do
(`hostStep_cases`), the parts of a finished `RUN` (`runToEnd_cases`), and that machines share nothing. -/

namespace Sys2Proof.Machine

/-! ### The host operations -/

/-- On an idle machine `OUTPUT` answers with `OUTQ` (R157). -/
theorem hostStep_output {s : State} (h : s.busy = false) : hostStep .output s = .performed s (.words s.outq) := by
  simp only [hostStep, h, hostOutput]

/-- What a performed operation does to `s`, answering `r`, by its kind, with the test that let it pass (R150, R155 to
R158, R162). -/
def HostEffect (s t : State) (r : Reply) : HostOp → Prop
  | .load image susp =>
    (∀ v ∈ image, s.xlen.holds v = true) ∧ s.xlen.holds (Int.ofNat (image.length + 3)) = true ∧
      t = construct s.xlen image (susp.getD Config.defaultSusp) ∧ r = .unit
  | .addInput v => s.xlen.holds v = true ∧ t = setInq s (s.inq ++ [v]) ∧ r = .unit
  | .run =>
    (∃ e, s.err = some e ∧ t = { s with stop := .fault } ∧ r = .status (.failed e)) ∨
      s.err = none ∧ t = startRun s ∧ r = .started
  | .output => t = s ∧ r = .words s.outq
  | .peekMem a => inBounds s a = true ∧ t = s ∧ r = .word (s.mem.get a.toNat)
  | .peekIp => t = s ∧ r = .index s.ip

/-- A performed host operation found the machine idle (R159), and did what its kind does. -/
theorem hostStep_cases {s t : State} {op : HostOp} {r : Reply} (h : hostStep op s = .performed t r) :
    s.busy = false ∧ HostEffect s t r op := by
  unfold hostStep at h
  split at h
  · cases h
  · rename_i hidle
    refine ⟨hidle, ?_⟩
    cases op with
    | load image susp =>
      simp only [hostLoad] at h
      split_ifs at h with hwords hlength
      cases h
      exact ⟨List.all_eq_true.1 hwords, hlength, rfl, rfl⟩
    | addInput v =>
      simp only [hostAddInput] at h
      split_ifs at h with hv
      cases h
      exact ⟨hv, rfl, rfl⟩
    | run =>
      simp only [hostRun] at h
      split at h
      · rename_i e herr
        cases h
        exact .inl ⟨e, herr, rfl, rfl⟩
      · rename_i herr
        cases h
        exact .inr ⟨herr, rfl, rfl⟩
    | output => cases h; exact ⟨rfl, rfl⟩
    | peekMem a =>
      simp only [hostPeekMem] at h
      split_ifs at h with ha
      cases h
      exact ⟨ha, rfl, rfl⟩
    | peekIp => cases h; exact ⟨rfl, rfl⟩

/-- An operation other than `LOAD` reaches the tail of `INQ` and the control state `BUSY` and `STOP`, no more (R163). -/
theorem hostStep_writes {s t : State} {op : HostOp} {r : Reply} (hop : ∀ image susp, op ≠ .load image susp)
    (h : hostStep op s = .performed t r) :
    ∃ pushed busy stop, t = { s with inq := s.inq ++ pushed, busy := busy, stop := stop } := by
  obtain ⟨-, heffect⟩ := hostStep_cases h
  have hread (hts : t = s) :
      ∃ pushed busy stop, t = { s with inq := s.inq ++ pushed, busy := busy, stop := stop } :=
    ⟨[], s.busy, s.stop, by rw [hts, List.append_nil]⟩
  cases op with
  | load image susp => exact absurd rfl (hop image susp)
  | addInput v =>
    obtain ⟨-, rfl, -⟩ := heffect
    exact ⟨[v], s.busy, s.stop, rfl⟩
  | run =>
    rcases heffect with ⟨e, -, rfl, -⟩ | ⟨-, rfl, -⟩
    · exact ⟨[], s.busy, .fault, by rw [List.append_nil]⟩
    · exact ⟨[], true, s.stop, by rw [List.append_nil, startRun]⟩
  | output => exact hread heffect.1
  | peekMem a => exact hread heffect.2.1
  | peekIp => exact hread heffect.1

/-- Settles O9: none of these fields is the tail of `INQ`, `BUSY` or `STOP`. -/
theorem onlyLoadWritesTheMachine : Obligations.OnlyLoadWritesTheMachine := by
  intro s t op r hop h
  obtain ⟨pushed, busy, stop, rfl⟩ := hostStep_writes hop h
  exact ⟨rfl, rfl, rfl, rfl, rfl, rfl, rfl, rfl, pushed, rfl⟩

/-! ### Runs -/

/-- A `RUN` that is over was performed, its loop has ended, and its status is read from the state then (R150, R160). -/
theorem runToEnd_cases {fuel : Nat} {s u : State} {c : Status} (h : runToEnd fuel s = some (u, c)) :
    ∃ t r, hostStep .run s = .performed t r ∧ runLoop fuel t = some u ∧ statusOf u = some c := by
  unfold runToEnd at h
  split at h
  · cases h
  · rename_i t r haccept
    split at h
    · cases h
    · rename_i v hloop
      obtain ⟨c', hstatus, heq⟩ := Option.map_eq_some_iff.1 h
      cases heq
      exact ⟨t, r, haccept, hloop, hstatus⟩

/-- A `RUN` that is over leaves the machine idle (R152). -/
theorem runToEnd_notBusy {fuel : Nat} {s u : State} {c : Status} (h : runToEnd fuel s = some (u, c)) :
    u.busy = false := by
  obtain ⟨t, r, -, hloop, -⟩ := runToEnd_cases h
  exact runLoop_notBusy hloop

/-- A `RUN` that is over has only appended to `OUTQ`: accepting it leaves `OUTQ` alone, and its steps append (R26). -/
theorem runToEnd_outq {fuel : Nat} {s u : State} {c : Status} (h : runToEnd fuel s = some (u, c)) :
    ∃ written, u.outq = s.outq ++ written := by
  obtain ⟨t, r, haccept, hloop, -⟩ := runToEnd_cases h
  obtain ⟨pushed, busy, stop, rfl⟩ := hostStep_writes (by simp) haccept
  exact (runConsumesOldestInput fuel _ u hloop).2

/-- Settles O5: the machine is idle before and after, and the run has only appended. -/
theorem outputReadIsIdempotent : Obligations.OutputReadIsIdempotent := by
  intro s hidle
  refine ⟨s, s.outq, hostStep_output hidle, rfl, rfl, hostStep_output hidle, fun fuel u c hrun => ?_⟩
  obtain ⟨written, hout⟩ := runToEnd_outq hrun
  exact ⟨written, hout ▸ hostStep_output (runToEnd_notBusy hrun)⟩

/-! ### Several machines -/

theorem fleetRun_cases {fuel k : Nat} {f g : Fleet} {c : Status} (h : fleetRun fuel k f = some (g, c)) :
    ∃ s t, f[k]? = some s ∧ runToEnd fuel s = some (t, c) ∧ g = f.set k t := by
  unfold fleetRun at h
  split at h
  · cases h
  · rename_i s hs
    obtain ⟨⟨t, c'⟩, hrun, heq⟩ := Option.map_eq_some_iff.1 h
    cases heq
    exact ⟨s, t, hs, hrun, rfl⟩

/-- What replaces machine `k` alone leaves the others, and shows at `k` what that machine has become. -/
theorem fleet_replaced {f g : Fleet} {k : Nat} {s : State} {P : State → State → Prop} (hs : f[k]? = some s)
    (h : ∃ s t, f[k]? = some s ∧ P s t ∧ g = f.set k t) :
    (∀ j, j ≠ k → g[j]? = f[j]?) ∧ ∃ t, g[k]? = some t ∧ P s t := by
  obtain ⟨s', t, hs', ht, rfl⟩ := h
  obtain rfl : s = s' := Option.some.inj (hs.symm.trans hs')
  obtain ⟨hat, hothers⟩ := fleet_set hs t
  exact ⟨hothers, t, hat, ht⟩

/-- Settles O59: an operation, a step and a run each compute from machine `k` what replaces it. -/
theorem machinesShareNothing : Obligations.MachinesShareNothing := by
  intro f k s hs
  refine ⟨fun op g r h => ?_, fun g h => ?_, fun fuel g c h => ?_⟩
  · exact fleet_replaced hs (fleetHost_cases h)
  · exact fleet_replaced hs (fleetStep_cases h)
  · exact fleet_replaced hs (fleetRun_cases h)

end Sys2Proof.Machine
end

section
/-! A step that executes nothing (spec/40_operand_resolver_and_step.md R86, spec/60_exceptions.md R189): the machine is
idle (`step_of_idle`), or its run loop is left before a step (`step_of_leaving`). -/

namespace Sys2Proof.Machine

theorem step_of_idle {s : State} (hidle : s.busy = false) : step s = .next s := by
  simp only [step, hidle]

/-- The run loop (R150) goes on to another step only with `HALT = 0` and `ERR = None`; else the run ends (R152). -/
theorem step_of_leaving {s : State} (hbusy : s.busy = true) (hleave : ¬ InRun s) :
    step s = .next (endRun (leavingCause s) s) := by
  unfold step
  split
  case h_1 hidle => exact absurd (hidle.symm.trans hbusy) (by decide)
  case h_2 _ hhalt herr => exact absurd ⟨hbusy, hhalt, herr⟩ hleave
  case h_3 => rfl

/-- Settles O13: the cause is `leavingCause`, and each clause about it is that definition's own law. -/
theorem idleMachineWaits : Obligations.IdleMachineWaits := by
  intro s
  refine ⟨step_of_idle, fun hbusy hleave => ⟨leavingCause s, step_of_leaving hbusy hleave, ?_, ?_, ?_⟩⟩
  · exact leavingCause_fault
  · exact leavingCause_flag
  · exact leavingCause_suspend

end Sys2Proof.Machine
end

section
/-! A run that hangs (spec/70_reset_and_hazards.md R210): a step that changes nothing is taken forever
(`runLoop_of_step_fixed`), and a jump to itself is such a step. -/

namespace Sys2Proof.Machine

/-- A running machine whose step leaves it as it is never becomes idle, whatever the bound. -/
theorem runLoop_of_step_fixed {s : State} (hbusy : s.busy = true) (hfixed : step s = .next s) (fuel : Nat) :
    runLoop fuel s = none := by
  induction fuel with
  | zero => exact runLoop_zero hbusy
  | succ k ih => exact (runLoop_succ hbusy hfixed k).trans ih

/-- Settles O57: the taken jump writes `IP` with the value it has, so the step leaves the whole state as it is. -/
theorem selfJumpHangsTheRun : Obligations.SelfJumpHangsTheRun := by
  intro s cond target rest hrun htaken hc ht hself
  have ⟨hbusy, hhalt, _⟩ := hrun
  have hnonneg : 0 ≤ valueIn s target := hself ▸ Int.natCast_nonneg s.ip
  have hstay : setIp s (valueIn s target).toNat = s := by rw [hself, Int.toNat_natCast, setIp]
  have hfixed : step s = .next s := by
    rcases htaken with ⟨hdec, hcond⟩ | ⟨hdec, hcond⟩
    · have hexec := exec_jt hc ht hnonneg
      rw [if_pos hcond, hstay] at hexec
      exact step_of_exec hrun hdec hexec hhalt
    · have hexec := exec_jf hc ht hnonneg
      rw [if_pos hcond, hstay] at hexec
      exact step_of_exec hrun hdec hexec hhalt
  exact runLoop_of_step_fixed hbusy hfixed

end Sys2Proof.Machine
end

section
/-! The invariant between steps (`State.Inv`): the data part is kept by every update of the state that an instruction
makes (`Committed.dataOk`), the control part is read off what a step of a run leaves (`step_inRun`), and a fault keeps
both when its record names the pointer and a Word (`inv_takeFault`). -/

namespace Sys2Proof.Machine

/-! ### The data part -/

/-- The part of the invariant that speaks of memory, the queues, `IP` and `N` (R22 to R26). -/
def DataOk (s : State) : Prop := s.mem.wf s.n = true ∧ WordsOk s ∧ SizesOk s

theorem dataOk_of_inv {s : State} (h : s.Inv) : DataOk s := by
  obtain ⟨hmem, hwords, hsizes, -⟩ := h
  exact ⟨hmem, hwords, hsizes⟩

/-- Every cell holds a Word, the cells that memory does not list among them. -/
theorem DataOk.holds_get {s : State} (h : DataOk s) (a : Nat) : s.xlen.holds (s.mem.get a) = true := by
  obtain ⟨-, ⟨hmem, -⟩, -⟩ := h
  rcases get_mem_or_zero s.mem a with hzero | ⟨b, hlisted⟩
  · rw [hzero]
    exact holds_of_32 _ _ (by decide) (by decide)
  · exact hmem _ hlisted

theorem DataOk.holds_inq {s : State} (h : DataOk s) {v : Word} (hv : v ∈ s.inq) : s.xlen.holds v = true := by
  obtain ⟨-, ⟨-, hin, -⟩, -⟩ := h
  exact hin v hv

/-- An index that an instruction in memory can reach without a jump is a Word, since `N <= WMAX - 3` (R23, D18). -/
theorem DataOk.holds_index {s : State} (h : DataOk s) {a : Nat} (ha : a ≤ s.n + 3) :
    s.xlen.holds (Int.ofNat a) = true := by
  obtain ⟨-, -, -, hsize⟩ := h
  refine holds_between s.xlen (holds_of_32 _ 0 (by decide) (by decide)) hsize (Int.natCast_nonneg a) ?_
  simp only [Int.ofNat_eq_natCast]
  omega

/-- A Word fetched is a Word of a cell. -/
theorem DataOk.holds_fetched {s : State} (h : DataOk s) {w : Word} (hw : w ∈ fetchWords s) :
    s.xlen.holds w = true := by
  obtain ⟨k, hk⟩ := List.mem_iff_getElem?.1 hw
  rw [fetchWords, getElem?_window] at hk
  split_ifs at hk
  exact Option.some.inj hk ▸ h.holds_get _

theorem DataOk.holds_params {s : State} (h : DataOk s) {i : Instr} {rest : List Word}
    (hdec : decode (fetchWords s) = .instr i rest) {p : Word} (hp : p ∈ i.params) : s.xlen.holds p = true := by
  obtain ⟨w, hw⟩ := params_of_decode hdec
  exact h.holds_fetched (by simp [hw, hp])

/-- What an operand stands for is a Word, in either mode. -/
theorem DataOk.holds_valueIn {s : State} (h : DataOk s) {o : Operand} (ho : s.xlen.holds o.word = true) :
    s.xlen.holds (valueIn s o) = true := by
  unfold valueIn
  split
  · exact ho
  · exact h.holds_get _

/-! ### The updates of the data part -/

theorem DataOk.storeWord {s : State} (h : DataOk s) {d r : Word} (hd : HasCell s d) (hr : s.xlen.holds r = true) :
    DataOk (storeWord s d.toNat r) := by
  obtain ⟨hwf, ⟨hmem, hqueues⟩, hsizes⟩ := h
  obtain ⟨hnonneg, hlt⟩ := hd
  refine ⟨set_wf hwf (by omega) r, ⟨fun c hc => ?_, hqueues⟩, hsizes⟩
  rcases mem_set hc with hold | rfl
  · exact hmem c hold
  · exact hr

theorem DataOk.setIp {s : State} (h : DataOk s) {a : Nat} (ha : s.xlen.holds (Int.ofNat a) = true) :
    DataOk (setIp s a) := by
  obtain ⟨hwf, hwords, -, hsize⟩ := h
  exact ⟨hwf, hwords, ha, hsize⟩

/-- The longest advance is 4, from the last cell at most, so it ends no further than `N + 3` (D18). -/
theorem DataOk.advance {s : State} (h : DataOk s) (hip : s.ip < s.n) {k : Nat} (hk : k ≤ 4) : DataOk (advance s k) :=
  h.setIp (h.holds_index (by omega))

theorem DataOk.setInq {s : State} (h : DataOk s) {q : List Word} (hq : ∀ v ∈ q, s.xlen.holds v = true) :
    DataOk (setInq s q) := by
  obtain ⟨hwf, ⟨hmem, -, hout⟩, hsizes⟩ := h
  exact ⟨hwf, ⟨hmem, hq, hout⟩, hsizes⟩

theorem DataOk.pushOutq {s : State} (h : DataOk s) {v : Word} (hv : s.xlen.holds v = true) :
    DataOk (pushOutq s v) := by
  obtain ⟨hwf, ⟨hmem, hin, hout⟩, hsizes⟩ := h
  refine ⟨hwf, ⟨hmem, hin, fun w hw => ?_⟩, hsizes⟩
  rcases List.mem_append.1 hw with hold | hnew
  · exact hout w hold
  · rw [List.mem_singleton.1 hnew]
    exact hv

theorem word_mem_params_of_jumpTarget {i : Instr} {target : Operand} (h : jumpTarget i = some target) :
    target.word ∈ i.params := by
  cases i <;> cases h <;> simp [Instr.params]

/-- An instruction in memory whose parameters are Words keeps the data part when it completes. -/
theorem Committed.dataOk {i : Instr} {s t : State} (hc : Committed i s t) (h : DataOk s) (hip : s.ip < s.n)
    (hparams : ∀ p ∈ i.params, s.xlen.holds p = true) : DataOk t := by
  rcases hc with ⟨d, r, -, -, hd, hr, rfl⟩ | ⟨d, v, q, -, hq, hd, rfl⟩ | ⟨a, rfl, -, rfl⟩ |
    ⟨target, htarget, -, -, rfl | ⟨-, hnonneg, rfl⟩⟩ | ⟨-, rfl⟩
  · exact (h.storeWord hd hr).advance hip (by decide)
  · have hv := h.holds_inq (v := v) (by simp [hq])
    have hqueue := h.setInq fun w (hw : w ∈ q) => h.holds_inq (by simp [hq, hw])
    exact (hqueue.storeWord hd hv).advance hip (by decide)
  · have hv := h.holds_valueIn (hparams a.word (by simp [Instr.params]))
    rw [haltWhenSuspending_eq]
    exact (h.pushOutq hv).advance hip (by decide)
  · exact h.advance hip (by decide)
  · have hv := h.holds_valueIn (hparams _ (word_mem_params_of_jumpTarget htarget))
    rw [← Int.toNat_of_nonneg hnonneg] at hv
    exact h.setIp hv
  · exact h

theorem loopTest_dataOk (i : Instr) {t : State} (h : DataOk t) : DataOk (loopTest i t) := by
  unfold loopTest
  split
  · exact h
  · exact h

/-! ### The control part -/

/-- An instruction that completes raises no fault. -/
theorem Committed.err_eq {i : Instr} {s t : State} (h : Committed i s t) : t.err = s.err := by
  rcases h with ⟨_, _, -, -, -, -, rfl⟩ | ⟨_, _, _, -, -, -, rfl⟩ | ⟨_, -, -, rfl⟩ |
    ⟨_, -, -, -, rfl | ⟨-, -, rfl⟩⟩ | ⟨-, rfl⟩ <;> simp

/-- A step of a run that raises no fault leaves the control state consistent: the run goes on, or it has ended by a
halt or by a suspension. -/
theorem controlOk_of_step {s t : State} (hrun : InRun s) (h : s.Inv) (hstep : step s = .next t) (herr : t.err = none) :
    ErrOk t ∧ FlagsOk t := by
  have hnone : ∀ e ∈ t.err, t.busy = false ∧ t.stop = .fault ∧ e.ip = t.ip ∧ e.wf t.xlen = true := by simp [herr]
  obtain ⟨-, hkeep, -⟩ := stepKeepsConstants s t hstep
  obtain ⟨-, -, -, ⟨-, hstop⟩, -, hsusp⟩ := h
  rcases step_inRun hrun hstep with ⟨⟨-, hhalt, -⟩, hsame, -⟩ | ⟨-, hhalt, hend⟩
  · exact ⟨⟨hnone, fun _ => hsame ▸ hstop hrun.2.2⟩, hhalt, fun hc => hkeep.trans (hsusp (hsame ▸ hc))⟩
  · rcases hend with ⟨hc, -⟩ | ⟨-, hne, -⟩ | ⟨hc, hs, -⟩
    · exact ⟨⟨hnone, by simp [hc]⟩, hhalt, by simp [hc]⟩
    · exact absurd herr hne
    · exact ⟨⟨hnone, by simp [hc]⟩, hhalt, fun _ => hkeep.trans hs⟩

/-! ### Faults -/

/-- A machine with a record in `ERR` is idle, and its run has ended by the fault (R177). -/
theorem idle_of_err {s : State} {e : FaultRecord} (h : s.Inv) (herr : s.err = some e) :
    s.busy = false ∧ s.stop = .fault := by
  obtain ⟨-, -, -, ⟨hfault, -⟩, -⟩ := h
  obtain ⟨hidle, hstop, -⟩ := hfault e herr
  exact ⟨hidle, hstop⟩

theorem inv_takeFault {s : State} {e : FaultRecord} (h : s.Inv) (hip : e.ip = s.ip) (hwf : e.wf s.xlen = true) :
    (takeFault e s).Inv := by
  obtain ⟨hmem, hwords, hsizes, -, hhalt, -⟩ := h
  refine ⟨hmem, hwords, hsizes, ⟨?_, by simp⟩, hhalt, by simp⟩
  rintro _ ⟨⟩
  exact ⟨rfl, rfl, hip, hwf⟩

/-- A record of the execute phase names a Word: a parameter, or the value of the jump's target. -/
theorem FaultOf.wf {i : Instr} {s : State} {e : FaultRecord} (he : FaultOf i s e) (h : DataOk s)
    (hparams : ∀ p ∈ i.params, s.xlen.holds p = true) : e.wf s.xlen = true := by
  rcases he with rfl | rfl | ⟨p, rfl, hp | ⟨target, htarget, rfl⟩⟩
  · rfl
  · rfl
  · exact hparams p hp
  · exact h.holds_valueIn (hparams _ (word_mem_params_of_jumpTarget htarget))

/-- If the decoder misses a cell of the instruction, it is cell `k` at most. -/
def MissingAtMost (k : Nat) (d : Decoded) : Prop := ∀ j, d = .reject (.missing j) → j ≤ k

theorem MissingAtMost.instr {k : Nat} {i : Instr} {rest : List Word} : MissingAtMost k (.instr i rest) := nofun

theorem MissingAtMost.withRead {k i : Nat} (hi : i ≤ k) {m : Int} {ps : List Word}
    {next : Operand → List Word → Decoded} (h : ∀ a ps', MissingAtMost k (next a ps')) :
    MissingAtMost k (withRead i m ps next) := by
  unfold Sys2Proof.withRead
  split
  · rintro _ ⟨⟩
    exact hi
  · split
    · exact h _ _
    · exact nofun

theorem MissingAtMost.withWrite {k i : Nat} (hi : i ≤ k) {m : Int} {ps : List Word}
    {next : Word → List Word → Decoded} (h : ∀ d ps', MissingAtMost k (next d ps')) :
    MissingAtMost k (withWrite i m ps next) := by
  unfold Sys2Proof.withWrite
  split
  · rintro _ ⟨⟩
    exact hi
  · split
    · exact h _ _
    · exact nofun
    · exact nofun

theorem missingAtMost_decodeRRW {w : Word} {ps : List Word} {mk : Operand → Operand → Word → Instr} :
    MissingAtMost 3 (decodeRRW w ps mk) :=
  .withRead (by decide) fun _ _ => .withRead (by decide) fun _ _ => .withWrite (by decide) fun _ _ => .instr

theorem missingAtMost_decodeRR {w : Word} {ps : List Word} {mk : Operand → Operand → Instr} :
    MissingAtMost 3 (decodeRR w ps mk) :=
  .withRead (by decide) fun _ _ => .withRead (by decide) fun _ _ => .instr

/-- No instruction has more than three parameters (R64). -/
theorem missingAtMost_decode (ws : List Word) : MissingAtMost 3 (decode ws) := by
  unfold decode
  split
  · rintro _ ⟨⟩
    decide
  · split_ifs
    · exact missingAtMost_decodeRRW
    · exact missingAtMost_decodeRRW
    · exact .withWrite (by decide) fun _ _ => .instr
    · exact .withRead (by decide) fun _ _ => .instr
    · exact missingAtMost_decodeRR
    · exact missingAtMost_decodeRR
    · exact missingAtMost_decodeRRW
    · exact missingAtMost_decodeRRW
    · exact .instr
    · exact nofun

/-- A record of the decode phase names the pointer. -/
theorem rejectRecord_ip (s : State) (r : Reject) : (rejectRecord s r).ip = s.ip := by cases r <;> rfl

/-- A record of the decode phase names a Word: past the end of memory the pointer itself, before it the Word fetched or
the address of a missing parameter, which is `N + 2` at most. -/
theorem DataOk.rejectRecord_wf {s : State} (h : DataOk s) {r : Reject}
    (hdec : decode (fetchWords s) = .reject r) : (rejectRecord s r).wf s.xlen = true := by
  cases r with
  | missing k =>
    by_cases hpast : s.n ≤ s.ip
    · rw [fetchWords_of_le hpast] at hdec
      cases hdec
      obtain ⟨-, -, hip, -⟩ := h
      exact hip
    · have hk := missingAtMost_decode _ k hdec
      exact h.holds_index (by omega)
  | unknownOpcode | badMode _ | immediateDest _ => exact h.holds_get _

/-! ### The step -/

/-- What decodes to an instruction lies in memory. -/
theorem ip_lt_of_decode {s : State} {i : Instr} {rest : List Word} (h : decode (fetchWords s) = .instr i rest) :
    s.ip < s.n := by
  by_contra hpast
  rw [fetchWords_of_le (Nat.not_lt.1 hpast)] at h
  cases h

/-- Under the invariant a busy machine is in a run (R177). -/
theorem inRun_of_busy {s : State} (h : s.Inv) (hbusy : s.busy = true) : InRun s := by
  have ⟨_, _, _, _, hhalt, _⟩ := h
  refine ⟨hbusy, hhalt, Option.eq_none_iff_forall_ne_some.2 fun e herr => ?_⟩
  cases (idle_of_err h herr).1.symm.trans hbusy

/-- Settles O43: a fault of either phase keeps the invariant by `inv_takeFault`; an instruction that completes keeps the
data part by `Committed.dataOk` and the control part by `controlOk_of_step`. -/
theorem stepKeepsInvariant : Obligations.StepKeepsInvariant := by
  intro s t h hstep
  have hdata := dataOk_of_inv h
  rcases step_cases hstep with ⟨-, rfl⟩ | ⟨-, r, hdec, rfl⟩ | ⟨hrun, i, rest, u, hdec, hu, rfl⟩ | ⟨hbusy, hleave, -⟩
  · exact h
  · exact inv_takeFault h (rejectRecord_ip s r) (hdata.rejectRecord_wf hdec)
  · have hparams : ∀ p ∈ i.params, s.xlen.holds p = true := fun p hp => hdata.holds_params hdec hp
    have ⟨_, hhalt, herr⟩ := hrun
    rcases exec_cases hu with hc | ⟨e, he, rfl⟩
    · obtain ⟨-, -, -, -, -, -, hkeep⟩ := loopTest_keeps i u
      obtain ⟨hmem, hwords, hsizes⟩ := loopTest_dataOk i (hc.dataOk hdata (ip_lt_of_decode hdec) hparams)
      exact ⟨hmem, hwords, hsizes, controlOk_of_step hrun h hstep (hkeep.trans (hc.err_eq.trans herr))⟩
    · rw [loopTest_running (by simpa using hhalt)]
      exact inv_takeFault h (FaultOf_ip he) (he.wf hdata hparams)
  · exact absurd (inRun_of_busy h hbusy) hleave

end Sys2Proof.Machine
end

section
/-! The host operations (spec/46_run_control_and_host.md R155 to R162; spec/10_state.md R34): what each is on an idle
machine, the reset table, the invariant, and that a fault lasts until the next `LOAD`. -/

namespace Sys2Proof.Machine

/-! ### `LOAD` and reset -/

/-- Construction from Words, with `N <= WMAX - 3`, meets the invariant (R34, D18, D22). -/
theorem inv_construct {x : Xlen} {image : List Word} (hwords : ∀ v ∈ image, x.holds v = true)
    (hlength : x.holds (Int.ofNat image.length + 3) = true) (susp : Bool) : (construct x image susp).Inv := by
  refine ⟨ofImage_wf image, ⟨fun c hc => hwords _ (mem_ofImage hc), nofun, nofun⟩, ⟨?_, hlength⟩, ⟨nofun, nofun⟩, rfl,
    nofun⟩
  exact holds_of_32 x 0 (by decide) (by decide)

/-- Settles O3: the reset state is the one constructed from the empty image. -/
theorem resetMeetsInvariant : Obligations.ResetMeetsInvariant :=
  inv_construct (image := []) nofun (holds_of_32 _ 3 (by decide) (by decide)) Config.defaultSusp

/-- An idle machine accepts an image of Words that is not too long (R155). -/
theorem hostStep_load {s : State} {image : List Word} (hidle : s.busy = false)
    (hwords : ∀ v ∈ image, s.xlen.holds v = true) (hlength : s.xlen.holds (Int.ofNat image.length + 3) = true)
    (susp : Option Bool) : hostStep (.load image susp) s =
      .performed (construct s.xlen image (susp.getD Config.defaultSusp)) .unit := by
  have hlength : s.xlen.holds (Int.ofNat (image.length + 3)) = true := hlength
  simp only [hostStep, hidle, hostLoad, if_pos (List.all_eq_true.2 hwords), if_pos hlength]

/-- Settles O1: every row is a field of `construct`; memory reads as the image by `get_ofImage`. -/
theorem loadLeavesTheResetTable : Obligations.LoadLeavesTheResetTable := by
  intro s image susp hidle hwords hlength
  refine ⟨_, hostStep_load hidle hwords hlength susp, rfl, fun i v hv => ?_, ofImage_wf image, rfl, rfl, rfl, rfl, rfl,
    rfl, rfl, rfl, rfl⟩
  have hget := get_ofImage image 0 i
  rw [hv, Nat.zero_add] at hget
  exact hget

/-- Settles O2: `LOAD` tests the values first and then the length; `ADD_INPUT` tests its value. -/
theorem hostValuesOutsideWordRangeRefused : Obligations.HostValuesOutsideWordRangeRefused := by
  intro s hidle
  refine ⟨fun image susp ⟨v, hv, hbad⟩ => ?_, fun image susp hwords hlong => ?_, fun v hbad => ?_⟩
  · have hall : ¬ image.all (fun v => s.xlen.holds v) = true := fun hall =>
      absurd (List.all_eq_true.1 hall v hv) (by simp [hbad])
    simp only [hostStep, hidle, hostLoad, if_neg hall]
  · have hlong : ¬ s.xlen.holds (Int.ofNat (image.length + 3)) = true := Bool.not_eq_true _ ▸ hlong
    simp only [hostStep, hidle, hostLoad, if_pos (List.all_eq_true.2 hwords), if_neg hlong]
  · simp [hostStep, hidle, hostAddInput, hbad]

/-! ### The operations that read or start -/

theorem hostStep_addInput {s : State} {v : Word} (hidle : s.busy = false) (hv : s.xlen.holds v = true) :
    hostStep (.addInput v) s = .performed (setInq s (s.inq ++ [v])) .unit := by
  simp only [hostStep, hidle, hostAddInput, if_pos hv]

/-- Settles O4: the update of `INQ` is the whole effect. -/
theorem addInputAppends : Obligations.AddInputAppends :=
  fun _ _ hidle hv => hostStep_addInput hidle hv

theorem hostStep_peekMem {s : State} (hidle : s.busy = false) (a : Int) :
    hostStep (.peekMem a) s =
      if inBounds s a then .performed s (.word (s.mem.get a.toNat)) else .refused .outOfBounds := by
  simp only [hostStep, hidle, hostPeekMem]

/-- Settles O6: `PEEK_MEM` answers by whether the cell exists. -/
theorem inspectionOfIdleMachine : Obligations.InspectionOfIdleMachine := by
  intro s hidle
  refine ⟨by simp only [hostStep, hidle, hostPeekIp], fun a ha => ?_, fun a ha => ?_⟩
  · have hcell : HasCell s a := ⟨Int.natCast_nonneg a, Int.ofNat_lt.2 ha⟩
    rw [hostStep_peekMem hidle, if_pos ((inBounds_iff s a).2 hcell), Int.toNat_natCast]
  · have hcell : ¬ HasCell s a := fun ⟨hnonneg, hlt⟩ => by omega
    rw [hostStep_peekMem hidle, if_neg (mt (inBounds_iff s a).1 hcell)]

/-- Settles O7: `BUSY` is tested before the operation is looked at. -/
theorem hostHasNoMoveDuringRun : Obligations.HostHasNoMoveDuringRun := by
  intro s op hbusy
  simp only [hostStep, hbusy]

theorem hostStep_run {s : State} (hidle : s.busy = false) (herr : s.err = none) :
    hostStep .run s = .performed (startRun s) .started := by
  simp only [hostStep, hidle, hostRun, herr]

theorem hostStep_run_faulted {s : State} {e : FaultRecord} (hidle : s.busy = false) (herr : s.err = some e) :
    hostStep .run s = .performed { s with stop := .fault } (.status (.failed e)) := by
  simp only [hostStep, hidle, hostRun, herr]

/-- Settles O8: `ERR` decides between the two. -/
theorem runStartsOrReportsFault : Obligations.RunStartsOrReportsFault :=
  fun _ hidle => ⟨hostStep_run hidle, fun _ => hostStep_run_faulted hidle⟩

/-! ### What the operations keep -/

/-- Values put at the tail of `INQ` need only be Words. -/
theorem inv_setInq {s : State} (h : s.Inv) {q : List Word} (hq : ∀ v ∈ q, s.xlen.holds v = true) :
    (setInq s q).Inv := by
  obtain ⟨hmem, hwords, hsizes⟩ := (dataOk_of_inv h).setInq hq
  obtain ⟨-, -, -, hcontrol⟩ := h
  exact ⟨hmem, hwords, hsizes, hcontrol⟩

/-- On a machine that has not faulted `BUSY` may be set (R150). -/
theorem inv_startRun {s : State} (h : s.Inv) (herr : s.err = none) : (startRun s).Inv := by
  obtain ⟨hmem, hwords, hsizes, ⟨-, hstop⟩, hflags⟩ := h
  exact ⟨hmem, hwords, hsizes, ⟨by simp [herr], hstop⟩, hflags⟩

/-- The further report of a fault writes what `STOP` already holds (R162, R177). -/
theorem stopFault_eq_self {s : State} {e : FaultRecord} (h : s.Inv) (herr : s.err = some e) :
    { s with stop := .fault } = s := by
  rw [← (idle_of_err h herr).2]

/-- Settles O10: by what a performed operation does, kind by kind. -/
theorem hostOpsKeepInvariant : Obligations.HostOpsKeepInvariant := by
  intro s t op r h hop
  obtain ⟨-, heffect⟩ := hostStep_cases hop
  cases op with
  | load image susp =>
    obtain ⟨hwords, hlength, rfl, -⟩ := heffect
    exact inv_construct hwords hlength _
  | addInput v =>
    obtain ⟨hv, rfl, -⟩ := heffect
    refine inv_setInq h fun w hw => ?_
    rcases List.mem_append.1 hw with hold | hnew
    · exact (dataOk_of_inv h).holds_inq hold
    · rw [List.mem_singleton.1 hnew]
      exact hv
  | run =>
    rcases heffect with ⟨e, herr, rfl, -⟩ | ⟨herr, rfl, -⟩
    · rw [stopFault_eq_self h herr]
      exact h
    · exact inv_startRun h herr
  | output | peekIp =>
    obtain ⟨rfl, -⟩ := heffect
    exact h
  | peekMem a =>
    obtain ⟨-, rfl, -⟩ := heffect
    exact h

/-- Settles O46: under the invariant a machine with a record in `ERR` is idle, before the operation and after it, and what
an operation other than `LOAD` writes is not among the other fields named. -/
theorem faultIsSticky : Obligations.FaultIsSticky := by
  intro s e h herr
  have hidle := (idle_of_err h herr).1
  refine ⟨step_of_idle hidle, fun op t r hop hperf => ?_⟩
  obtain ⟨hmem, -, hip, hout, -, -, hkeep, -⟩ := onlyLoadWritesTheMachine s t op r hop hperf
  have herr' : t.err = some e := hkeep.trans herr
  have hidle' := (idle_of_err (hostOpsKeepInvariant s t op r h hperf) herr').1
  refine ⟨herr', hmem, hip, hout, hidle', ?_⟩
  rintro rfl
  cases (hostStep_run_faulted hidle herr).symm.trans hperf
  rfl

end Sys2Proof.Machine
end

section
/-! Rejections of the decode phase (spec/30_encoding.md R66 to R70, spec/40_operand_resolver_and_step.md R88): Words that
are no opcode, the first parameter that cannot be resolved (`BadParam`), and the digits that are never examined. -/

namespace Sys2Proof.Machine

/-! ### Rejections are taken as faults -/

/-- Settles O17: the record is that of `rejectRecord`, the address of a missing cell written as a sum of integers. -/
theorem decodeFaultsAreTaken : Obligations.DecodeFaultsAreTaken := by
  intro s r hrun hdec
  rw [step_of_reject hrun hdec]
  cases r <;> simp [rejectRecord]

/-! ### Words that are no opcode -/

/-- The opcodes of the map are positive. -/
theorem formatOf_of_nonpos {op : Int} (h : op ≤ 0) : formatOf op = none := by
  unfold formatOf
  rw [if_neg (by omega), if_neg (by omega), if_neg (by omega), if_neg (by omega), if_neg (by omega)]

/-- R66, D3: no negative Word is an opcode. -/
theorem formatOf_of_neg {w : Word} (h : w < 0) : formatOf (opcodeOf w) = none := by
  refine formatOf_of_nonpos (Int.not_lt.1 fun hpos => ?_)
  exact absurd (nonneg_of_opcodeOf_pos hpos) (Int.not_le.2 h)

/-- In bounds the fetch gives the Word that `IP` names, and perhaps Words after it. -/
theorem fetchWords_of_lt {s : State} (h : s.ip < s.n) : ∃ ps, fetchWords s = s.mem.get s.ip :: ps :=
  List.head?_eq_some_iff.1 (head?_fetchWords_of_lt h)

/-- A Word in bounds that is no opcode is the step's `Decode` fault (R68). -/
theorem step_of_unknownOpcode {s : State} (hrun : InRun s) (hip : s.ip < s.n)
    (hop : formatOf (opcodeOf (s.mem.get s.ip)) = none) :
    step s = .next (withFault (.decode s.ip (s.mem.get s.ip)) s) := by
  obtain ⟨ps, hps⟩ := fetchWords_of_lt hip
  exact step_of_reject hrun (hps ▸ decode_unknown hop ps)

/-- Settles O16: a negative Word is one case of a Word that is no opcode. -/
theorem unknownOpcodeFaults : Obligations.UnknownOpcodeFaults := by
  rintro s _ hrun hip rfl hop
  exact step_of_unknownOpcode hrun hip (hop.elim id formatOf_of_neg)

/-! ### The first parameter that cannot be resolved -/

/-- Parameter `i` of this role, with this mode digit and its Word, if there is one, is rejected as `r` (R69, R88). -/
def BadParam (i : Nat) (role : Role) (digit : Int) (p : Option Word) (r : Reject) : Prop :=
  (p = none ∧ r = .missing i) ∨
  ((∃ v, p = some v) ∧ digit ≠ 0 ∧ digit ≠ 1 ∧ r = .badMode i) ∨
  ((∃ v, p = some v) ∧ role = .write ∧ digit = 1 ∧ r = .immediateDest i)

theorem withRead_reject {i : Nat} {m : Int} {ps : List Word} {next : Operand → List Word → Decoded} {r : Reject}
    (h : BadParam i .read m ps[0]? r) : withRead i m ps next = .reject r := by
  cases ps with
  | nil =>
    rcases h with ⟨-, rfl⟩ | ⟨⟨v, hv⟩, -⟩ | ⟨⟨v, hv⟩, -⟩
    · rfl
    · cases hv
    · cases hv
  | cons p ps =>
    rcases h with ⟨hnone, -⟩ | ⟨-, h0, h1, rfl⟩ | ⟨-, hrole, -⟩
    · cases hnone
    · simp [withRead, (modeOf_none m).2 ⟨h0, h1⟩]
    · cases hrole

theorem withWrite_reject {i : Nat} {m : Int} {ps : List Word} {next : Word → List Word → Decoded} {r : Reject}
    (h : BadParam i .write m ps[0]? r) : withWrite i m ps next = .reject r := by
  cases ps with
  | nil =>
    rcases h with ⟨-, rfl⟩ | ⟨⟨v, hv⟩, -⟩ | ⟨⟨v, hv⟩, -⟩
    · rfl
    · cases hv
    · cases hv
  | cons p ps =>
    rcases h with ⟨hnone, -⟩ | ⟨-, h0, h1, rfl⟩ | ⟨-, -, h1, rfl⟩
    · cases hnone
    · simp [withWrite, (modeOf_none m).2 ⟨h0, h1⟩]
    · simp [withWrite, (modeOf_iff m .immediate).2 h1]

/-- Format `RRW` (R64): `a`, then `b`, then `dst`. -/
theorem decodeRRW_reject {w : Word} {ps : List Word} {mk : Operand → Operand → Word → Instr} {k : Nat} {role : Role}
    {r : Reject} (hrole : Format.rrw.roles[k]? = some role)
    (hl : LegalParams (modeDigit w) ps (Format.rrw.roles.take k))
    (hbad : BadParam (k + 1) role (modeDigit w k) ps[k]? r) : decodeRRW w ps mk = .reject r := by
  match k, hrole with
  | 0, rfl => exact withRead_reject hbad
  | 1, rfl =>
    obtain ⟨a, ps, rfl, ha, -⟩ := hl.read
    exact (withRead_cons ((modeOf_iff (mode1 w) _).2 ha)).trans (withRead_reject hbad)
  | 2, rfl =>
    obtain ⟨a, ps, rfl, ha, hl⟩ := hl.read
    obtain ⟨b, ps, rfl, hb, -⟩ := hl.read
    exact (withRead_cons ((modeOf_iff (mode1 w) _).2 ha)).trans
      ((withRead_cons ((modeOf_iff (mode2 w) _).2 hb)).trans (withWrite_reject hbad))

/-- Format `RR` (R64): `cond`, then `target`. -/
theorem decodeRR_reject {w : Word} {ps : List Word} {mk : Operand → Operand → Instr} {k : Nat} {role : Role}
    {r : Reject} (hrole : Format.rr.roles[k]? = some role)
    (hl : LegalParams (modeDigit w) ps (Format.rr.roles.take k))
    (hbad : BadParam (k + 1) role (modeDigit w k) ps[k]? r) : decodeRR w ps mk = .reject r := by
  match k, hrole with
  | 0, rfl => exact withRead_reject hbad
  | 1, rfl =>
    obtain ⟨a, ps, rfl, ha, -⟩ := hl.read
    exact (withRead_cons ((modeOf_iff (mode1 w) _).2 ha)).trans (withRead_reject hbad)

/-- A Word with an opcode is rejected for the first parameter that cannot be resolved (R88, D10). -/
theorem decode_reject {w : Word} {ps : List Word} {f : Format} {k : Nat} {role : Role} {r : Reject}
    (hf : formatOf (opcodeOf w) = some f) (hrole : f.roles[k]? = some role)
    (hl : LegalParams (modeDigit w) ps (f.roles.take k))
    (hbad : BadParam (k + 1) role (modeDigit w k) ps[k]? r) : decode (w :: ps) = .reject r := by
  unfold formatOf at hf
  split_ifs at hf with hrrw hw hr hrr hz <;> cases hf
  · obtain e | e | e | e := hrrw
    · exact (decode_add e ps).trans (decodeRRW_reject hrole hl hbad)
    · exact (decode_mul e ps).trans (decodeRRW_reject hrole hl hbad)
    · exact (decode_lt e ps).trans (decodeRRW_reject hrole hl hbad)
    · exact (decode_eq e ps).trans (decodeRRW_reject hrole hl hbad)
  · match k, hrole with
    | 0, rfl => exact (decode_input hw ps).trans (withWrite_reject hbad)
  · match k, hrole with
    | 0, rfl => exact (decode_output hr ps).trans (withRead_reject hbad)
  · obtain e | e := hrr
    · exact (decode_jt e ps).trans (decodeRR_reject hrole hl hbad)
    · exact (decode_jf e ps).trans (decodeRR_reject hrole hl hbad)
  · cases hrole

/-- Settles O18: each clause is one kind of `BadParam`, the parameters before it being legal. -/
theorem decodeRejectsFirstBadParameter : Obligations.DecodeRejectsFirstBadParameter := by
  intro w ps f k role hf hrole hbefore
  have hl : LegalParams (modeDigit w) ps (f.roles.take k) := fun j r hr => by
    rw [List.getElem?_take] at hr
    split_ifs at hr with hj
    exact hbefore j r hj hr
  refine ⟨fun hnone => ?_, fun p hp h0 h1 => ?_, fun p hp hwrite h1 => ?_⟩
  · exact decode_reject hf hrole hl (.inl ⟨hnone, rfl⟩)
  · exact decode_reject hf hrole hl (.inr (.inl ⟨⟨p, hp⟩, h0, h1, rfl⟩))
  · exact decode_reject hf hrole hl (.inr (.inr ⟨⟨p, hp⟩, hwrite, h1, rfl⟩))

/-! ### Digits that are not examined -/

/-- Settles O22: the high digits lie above the four fields the decoder looks at; and the fields of an instruction end
with the digits of its own parameters. -/
theorem undecodedDigitsAreIgnored : Obligations.UndecodedDigitsAreIgnored := by
  intro w ps k hw
  refine ⟨?_, fun i rest hdec v _ hop hdigits => ?_⟩
  · obtain ⟨n, rfl⟩ := Int.eq_ofNat_of_zero_le hw
    obtain ⟨h0, h1, h2, h3⟩ := fields_of_nat (n + 100000 * k)
    obtain ⟨g0, g1, g2, g3⟩ := fields_of_nat n
    push_cast at h0 h1 h2 h3 g0 g1 g2 g3
    exact decode_congr (by omega) (by omega) (by omega) (by omega) ps
  · obtain ⟨hop', hps, hd⟩ := fields_of_decode hdec
    rw [hps]
    refine decode_of_fields (hop.trans hop') (fun j m hj => ?_) rest
    exact (hdigits j (List.getElem?_eq_some_iff.1 hj).1).trans (hd j m hj)

/-- Settles O23: the spec's own examples, evaluated. -/
theorem wordsOfTheSpecDecode : Obligations.WordsOfTheSpecDecode := by
  unfold Obligations.WordsOfTheSpecDecode
  decide

end Sys2Proof.Machine
end

section
/-! The faults of the execute phase (spec/60_exceptions.md R172 to R177) in their order, the jumps (spec/43_control_flow.md
R120 to R124), and what holds of every instruction: it answers a next state, a fault is precise, `IP` advances or jumps. -/

namespace Sys2Proof.Machine

/-! ### Arithmetic, comparison and input -/

/-- Where a format `RRW` instruction faults on its operands (R89, R176, D10), whatever it computes. -/
theorem finish_binary_faults (f : Word → Word → Except FaultRecord Word) (a b : Operand) (dst : Word) (s : State) :
    (¬ Readable s a → finish s (binary f a b dst s) = .next (withFault (.outOfBounds a.word s.ip) s)) ∧
    (Readable s a → ¬ Readable s b →
      finish s (binary f a b dst s) = .next (withFault (.outOfBounds b.word s.ip) s)) ∧
    (Readable s a → Readable s b → ¬ HasCell s dst →
      finish s (binary f a b dst s) = .next (withFault (.outOfBounds dst s.ip) s)) := by
  refine ⟨fun ha => ?_, fun ha hb => ?_, fun ha hb hd => ?_⟩
  · simp only [binary, readOperand_error ha, finish_error, takeFault_eq]
  · simp only [binary, readOperand_ok ha, readOperand_error hb, finish_error, takeFault_eq]
  · simp only [binary, readOperand_ok ha, readOperand_ok hb, writeAddr_error hd, finish_error, takeFault_eq]

/-- Settles O32: the four differ in what they compute only. -/
theorem binaryOperandFaultsInOrder : Obligations.BinaryOperandFaultsInOrder := by
  intro s a b dst i hi
  simp only [List.mem_cons, List.not_mem_nil, or_false] at hi
  rcases hi with rfl | rfl | rfl | rfl <;> exact finish_binary_faults _ a b dst s

/-- A result that is the fault `e` is the instruction's fault, its operands being all there. -/
theorem finish_binary_fault {f : Word → Word → Except FaultRecord Word} {a b : Operand} {dst : Word} {s : State}
    {e : FaultRecord} (ha : Readable s a) (hb : Readable s b) (hd : HasCell s dst)
    (hf : f (valueIn s a) (valueIn s b) = .error e) : finish s (binary f a b dst s) = .next (withFault e s) := by
  rw [binary_eq ha hb hd, hf, finish_error, takeFault_eq]

/-- Settles O27: the fault is that of `narrow`, and the range is that of `holds_finite`. -/
theorem arithmeticOverflowFaults : Obligations.ArithmeticOverflowFaults := by
  refine ⟨fun s a b dst ha hb hd => ⟨fun hsum => ?_, fun hprod => ?_⟩, holds_inf, fun k r => ?_⟩
  · exact finish_binary_fault ha hb hd (narrow_error hsum)
  · exact finish_binary_fault ha hb hd (narrow_error hprod)
  · simpa using holds_finite k r

/-- Settles O34: the destination is checked before the queue is looked at. -/
theorem inFaultsWithoutPopping : Obligations.InFaultsWithoutPopping := by
  intro s dst
  refine ⟨fun hd => ?_, fun hd hempty => ?_⟩
  · simp only [exec, execIn, input, writeAddr_error hd, finish_error, takeFault_eq]
  · simp only [exec, execIn, input, writeAddr_ok hd, hempty, finish_error, takeFault_eq]

/-! ### Jumps -/

section
variable {taken : Word → Bool} {cond target : Operand} {s : State}

/-- A jump not taken falls through, whatever its target is (R122, D8). -/
theorem jumpWhen_not_taken (hc : Readable s cond) (h : taken (valueIn s cond) = false) :
    jumpWhen taken cond target s = .ok (advance s 3) := by
  simp [jumpWhen, readOperand_ok hc, h]

/-- Where a jump faults (R120 to R123, D10). -/
theorem finish_jumpWhen_faults :
    (¬ Readable s cond →
      finish s (jumpWhen taken cond target s) = .next (withFault (.outOfBounds cond.word s.ip) s)) ∧
    (Readable s cond → taken (valueIn s cond) = true → ¬ Readable s target →
      finish s (jumpWhen taken cond target s) = .next (withFault (.outOfBounds target.word s.ip) s)) ∧
    (Readable s cond → taken (valueIn s cond) = true → Readable s target → valueIn s target < 0 →
      finish s (jumpWhen taken cond target s) = .next (withFault (.outOfBounds (valueIn s target) s.ip) s)) := by
  refine ⟨fun hc => ?_, fun hc h ht => ?_, fun hc h ht hneg => ?_⟩
  · simp only [jumpWhen, readOperand_error hc, finish_error, takeFault_eq]
  · simp only [jumpWhen, readOperand_ok hc, h, if_true, readOperand_error ht, finish_error, takeFault_eq]
  · simp only [jumpWhen, readOperand_ok hc, h, if_true, readOperand_ok ht, jumpTo_neg hneg, finish_error, takeFault_eq]

end

/-- Settles O39: `JT` and `JF` differ in the test of the condition only. -/
theorem jumpFaultsInOrder : Obligations.JumpFaultsInOrder := by
  intro s cond target i taken hi
  have htest : ∃ test : Word → Bool,
      exec i s = finish s (jumpWhen test cond target s) ∧ ∀ c, taken c → test c = true := by
    rcases hi with ⟨rfl, rfl⟩ | ⟨rfl, rfl⟩
    · exact ⟨_, rfl, fun _ => decide_eq_true⟩
    · exact ⟨_, rfl, fun _ => decide_eq_true⟩
  obtain ⟨test, hexec, htaken⟩ := htest
  obtain ⟨hcond, htarget, hneg⟩ := finish_jumpWhen_faults (taken := test) (cond := cond) (target := target) (s := s)
  rw [hexec]
  exact ⟨hcond, fun hc h => htarget hc (htaken _ h), fun hc h => hneg hc (htaken _ h)⟩

/-- Settles O37: by `exec_jt` when the jump is taken, by `jumpWhen_not_taken` when it is not. -/
theorem jtJumpsWhenNonzero : Obligations.JtJumpsWhenNonzero := by
  refine fun s cond target hc => ⟨fun h ht hn => ?_, fun h => ?_⟩
  · rw [exec_jt hc ht hn, if_pos h]
    rfl
  · exact congrArg (finish s) (jumpWhen_not_taken hc (by simp [h]))

/-- Settles O38: by `exec_jf` when the jump is taken, by `jumpWhen_not_taken` when it is not. -/
theorem jfJumpsWhenZero : Obligations.JfJumpsWhenZero := by
  refine fun s cond target hc => ⟨fun h ht hn => ?_, fun h => ?_⟩
  · rw [exec_jf hc ht hn, if_pos h]
    rfl
  · exact congrArg (finish s) (jumpWhen_not_taken hc (by simp [h]))

/-- Settles O40: the jump is a step of the run, and the machine it leaves has `IP` past the end of memory. -/
theorem jumpPastEndFaultsAtNextFetch : Obligations.JumpPastEndFaultsAtNextFetch := by
  intro s cond target rest hrun htaken hc ht hpast
  have hnonneg : 0 ≤ valueIn s target := (Int.natCast_nonneg s.n).trans hpast
  have hstep : step s = .next (setIp s (valueIn s target).toNat) := by
    rcases htaken with ⟨hdec, hcond⟩ | ⟨hdec, hcond⟩
    · exact step_of_exec hrun hdec ((jtJumpsWhenNonzero s cond target hc).1 hcond ht hnonneg) hrun.2.1
    · exact step_of_exec hrun hdec ((jfJumpsWhenZero s cond target hc).1 hcond ht hnonneg) hrun.2.1
  have hfetch := (fetchIsBoundsChecked (setIp s (valueIn s target).toNat) hrun).1 ((Int.le_toNat hnonneg).2 hpast)
  rw [setIp_ip, Int.toNat_of_nonneg hnonneg] at hfetch
  exact ⟨_, hstep, rfl, hfetch⟩

/-! ### Every instruction -/

theorem finish_next (s : State) (r : Except FaultRecord State) : ∃ t, finish s r = .next t := by
  cases r with
  | ok t => exact ⟨t, rfl⟩
  | error e => exact ⟨takeFault e s, rfl⟩

theorem exec_next (i : Instr) (s : State) : ∃ t, exec i s = .next t := by
  cases i with
  | hlt => exact ⟨setHalt s, rfl⟩
  | add | mul | input | output | jt | jf | lt | eq => exact finish_next s _

/-- Settles O44: a step waits, leaves the run loop, takes the decode phase's fault, or executes what was decoded. -/
theorem everyInstructionExecutes : Obligations.EveryInstructionExecutes := by
  refine ⟨exec_next, fun s => ?_⟩
  by_cases hrun : InRun s
  · cases hdec : decode (fetchWords s) with
    | reject r => exact ⟨_, step_of_reject hrun hdec⟩
    | instr i rest =>
      obtain ⟨u, hu⟩ := exec_next i s
      exact ⟨_, step_of_exec_loopTest hrun hdec hu⟩
  · cases hbusy : s.busy with
    | false => exact ⟨_, step_of_idle hbusy⟩
    | true => exact ⟨_, step_of_leaving hbusy hrun⟩

/-- An instruction that leaves a record in `ERR` has taken its own fault (R90, R177). -/
theorem exec_fault {i : Instr} {s t : State} (herr : s.err = none) (h : exec i s = .next t) (ht : t.err ≠ none) :
    ∃ e, t = withFault e s ∧ e.ip = s.ip := by
  rcases exec_cases h with hc | ⟨e, he, rfl⟩
  · exact absurd (hc.err_eq.trans herr) ht
  · exact ⟨e, takeFault_eq e s, FaultOf_ip he⟩

/-- Settles O45: a step of a run faults in the decode phase or in its instruction, and after a fault the loop's test does
nothing, `HALT` being as before the step. -/
theorem faultsArePrecise : Obligations.FaultsArePrecise := by
  refine ⟨fun i s t => exec_fault, fun s t hrun hstep ht => ?_⟩
  have ⟨hbusy, hhalt, herr⟩ := hrun
  rcases step_cases hstep with ⟨hidle, -⟩ | ⟨-, r, -, rfl⟩ | ⟨-, i, rest, u, -, hu, rfl⟩ | ⟨-, hleave, -⟩
  · cases hidle.symm.trans hbusy
  · exact ⟨_, takeFault_eq _ s, rejectRecord_ip s r⟩
  · obtain ⟨-, -, -, -, -, -, hkeep⟩ := loopTest_keeps i u
    obtain ⟨e, rfl, he⟩ := exec_fault herr hu (hkeep ▸ ht)
    exact ⟨e, loopTest_running hhalt, he⟩
  · exact absurd hrun hleave

/-- Settles O49: of the effects an instruction completes with, a jump's is the only one that sets `IP` to another
value than its advance. -/
theorem pointerAdvancesOrJumps : Obligations.PointerAdvancesOrJumps := by
  intro i s t _ h ht
  rcases exec_cases h with (⟨_, _, -, hk, -, -, rfl⟩ | ⟨_, _, _, rfl, -, -, rfl⟩ | ⟨a, rfl, -, rfl⟩ |
    ⟨target, htarget, hk, -, rfl | ⟨hread, hnonneg, rfl⟩⟩ | ⟨rfl, rfl⟩) | ⟨e, -, rfl⟩
  · exact .inl (by simp [hk])
  · exact .inl rfl
  · exact .inl (by simp [ipAdvance])
  · exact .inl (by simp [hk])
  · exact .inr ⟨target, htarget, hread, Int.toNat_of_nonneg hnonneg⟩
  · exact .inl rfl
  · cases ht

end Sys2Proof.Machine
end

section
/-! The loop's test and the two ways an instruction ends a run (spec/46_run_control_and_host.md R150 to R152): `HLT`
(spec/45_halt.md) and `OUT` under `SUSP = 1` (spec/42_io.md R113). -/

namespace Sys2Proof.Machine

/-! ### The loop's test -/

/-- Settles O11: a step inside a run is `step_of_exec_loopTest`, and every instruction answers a next state. -/
theorem stepRunsDecoded : Obligations.StepRunsDecoded := by
  intro s i rest hrun hdec
  obtain ⟨u, hu⟩ := exec_next i s
  simp only [step_of_exec_loopTest hrun hdec hu, hu]

/-- With `HALT = 1` the run ends by the cause of the instruction that sets the flag (R152). -/
theorem loopTest_of_haltCause {i : Instr} {c : StopCause} {t : State} (ht : t.halt = true)
    (hc : haltCause i = some c) : loopTest i t = endRun c t := by
  simp only [loopTest, ht, hc]

/-- Settles O12: `HLT` and `OUT` are the instructions with a cause. -/
theorem endOfRunThroughFlag : Obligations.EndOfRunThroughFlag :=
  fun _ => ⟨fun _ => loopTest_running, fun ht => loopTest_of_haltCause ht rfl, fun _ ht => loopTest_of_haltCause ht rfl⟩

/-! ### `OUT` -/

/-- Settles O36: the step of an `OUT` under either `SUSP` is `step_output_suspends` or `step_output`, and no other
instruction looks at `SUSP` by `exec_withSusp`. -/
theorem suspendOnOutput : Obligations.SuspendOnOutput := by
  refine ⟨fun s a rest hrun hdec ha => ⟨fun hs => ⟨?_, _, step_output_suspends hrun hs hdec ha, rfl, ?_⟩,
    fun hs => ⟨?_, step_output hrun hs hdec ha⟩⟩, fun s t i c => exec_withSusp c⟩
  · rw [exec_output ha, hs, Bool.or_true]
  · exact hostStep_run rfl hrun.2.2
  · rw [exec_output ha, hs, Bool.or_false]

/-! ### `HLT` -/

/-- A `HLT` at `IP` ends the run: the flag it sets is cleared again (R140, R152). -/
theorem step_hlt {s : State} (hrun : InRun s) (hip : s.ip < s.n) (hop : opcodeOf (s.mem.get s.ip) = 99) :
    step s = .next { s with stop := .halt, busy := false } := by
  obtain ⟨ps, hps⟩ := fetchWords_of_lt hip
  have hdec : decode (fetchWords s) = .instr .hlt ps := hps ▸ decode_hlt hop ps
  have hexec : exec .hlt s = .next (setHalt s) := rfl
  have ⟨_, hhalt, _⟩ := hrun
  have hend : endRun .halt (setHalt s) = { s with stop := .halt, busy := false } := by
    simp only [endRun, setHalt, hhalt]
  rw [step_of_exec_loopTest hrun hdec hexec, loopTest_of_haltCause rfl rfl, hend]

/-- Settles O41: by `step_hlt`, and a negative Word is no opcode. -/
theorem hltEndsTheRun : Obligations.HltEndsTheRun := by
  refine ⟨fun s => rfl, ?_⟩
  rintro s _ hrun hip rfl
  exact ⟨fun _ hop => step_hlt hrun hip hop, fun hneg => step_of_unknownOpcode hrun hip (formatOf_of_neg hneg)⟩

/-- Settles O42: the `RUN` is accepted, and the one step of the run is `step_hlt`. -/
theorem haltedMachineStaysHalted : Obligations.HaltedMachineStaysHalted := by
  intro s fuel hidle hhalt herr hip _ hop
  have hstep : step (startRun s) = .next { s with stop := .halt } := by
    have hrun : InRun (startRun s) := ⟨rfl, hhalt, herr⟩
    simp [step_hlt hrun hip hop, hidle]
  have hloop : runLoop (fuel + 1) (startRun s) = some { s with stop := .halt } :=
    (runLoop_succ rfl hstep fuel).trans (runLoop_idle (s := { s with stop := .halt }) hidle fuel)
  simp only [runToEnd, hostStep_run hidle herr, hloop, statusOf, Option.map_some]

end Sys2Proof.Machine
end

section
/-! How a run ends (spec/46_run_control_and_host.md R152, R154, R160): the three ends with the outputs of each
(`RunEnd`), by induction over the steps of the run; and the status
it reports. -/

namespace Sys2Proof.Machine

/-- The machine `t` that a run of `s` leaves: idle, with `HALT = 0`, and halted or faulted, under `SUSP = 1` without an
output, or suspended with one. -/
def RunEnd (s t : State) : Prop :=
  t.busy = false ∧ t.halt = false ∧
    ((t.stop = .halt ∧ t.err = none ∧ (s.susp = true → t.outq = s.outq)) ∨
      (t.stop = .fault ∧ t.err ≠ none ∧ (s.susp = true → t.outq = s.outq)) ∨
      (t.stop = .suspend ∧ t.err = none ∧ s.susp = true ∧ ∃ v, t.outq = s.outq ++ [v]))

/-- A step that leaves `SUSP`, and under `SUSP = 1` leaves `OUTQ`, may stand before the run. -/
theorem RunEnd.of_step {s t u : State} (hsusp : t.susp = s.susp) (hout : s.susp = true → t.outq = s.outq)
    (h : RunEnd t u) : RunEnd s u := by
  obtain ⟨hidle, hhalt, hend⟩ := h
  rw [hsusp] at hend
  refine ⟨hidle, hhalt, ?_⟩
  rcases hend with ⟨hc, he, hq⟩ | ⟨hc, he, hq⟩ | ⟨hc, he, hs, v, hq⟩
  · exact .inl ⟨hc, he, fun hs => (hq hs).trans (hout hs)⟩
  · exact .inr (.inl ⟨hc, he, fun hs => (hq hs).trans (hout hs)⟩)
  · exact .inr (.inr ⟨hc, he, hs, v, hout hs ▸ hq⟩)

theorem runEnd_of_runLoop {fuel : Nat} {s u : State} (hrun : InRun s) (h : runLoop fuel s = some u) : RunEnd s u := by
  induction fuel generalizing s with
  | zero =>
    rw [runLoop_zero hrun.1] at h
    cases h
  | succ fuel ih =>
    rcases runLoop_cases h with ⟨hidle, -⟩ | ⟨k, t, hfuel, -, hstep, hrest⟩
    · cases hidle.symm.trans hrun.1
    · cases hfuel
      rcases step_inRun hrun hstep with ⟨ht, -, hsusp, hout⟩ | ⟨hidle, hhalt, hend⟩
      · refine (ih ht hrest).of_step hsusp fun hs => ?_
        rcases hout with hsame | ⟨hs', -⟩
        · exact hsame
        · cases hs.symm.trans hs'
      · rw [runLoop_idle hidle] at hrest
        cases hrest
        refine ⟨hidle, hhalt, ?_⟩
        rcases hend with ⟨hc, he, hq⟩ | ⟨hc, he, hq⟩ | ⟨hc, hs, he, hq⟩
        · exact .inl ⟨hc, he, fun _ => hq⟩
        · exact .inr (.inl ⟨hc, he, fun _ => hq⟩)
        · exact .inr (.inr ⟨hc, he, hs, hq⟩)

/-- Settles O53: each of the three ends of a run has its cause, and the fault's alone a record. -/
theorem runEndsIdle : Obligations.RunEndsIdle := by
  intro fuel s t hrun h
  obtain ⟨hidle, hhalt, hend⟩ := runEnd_of_runLoop hrun h
  refine ⟨hidle, hhalt, ?_⟩
  rcases hend with ⟨hc, he, -⟩ | ⟨hc, he, -⟩ | ⟨hc, he, -⟩ <;> simp [hc, he]

/-- Settles O54: under `SUSP = 1` by the ends of a run; under `SUSP = 0` a run only appends (R26). -/
theorem outputsOfARun : Obligations.OutputsOfARun := by
  intro fuel s t hrun h
  obtain ⟨-, -, hend⟩ := runEnd_of_runLoop hrun h
  refine ⟨fun hs => ?_, fun hs => ⟨?_, (runConsumesOldestInput fuel s t h).2⟩⟩
  · rcases hend with ⟨hc, -, hq⟩ | ⟨hc, -, hq⟩ | ⟨hc, -, -, hq⟩
    · exact ⟨fun hc' => (by cases hc.symm.trans hc'), fun _ => hq hs⟩
    · exact ⟨fun hc' => (by cases hc.symm.trans hc'), fun _ => hq hs⟩
    · exact ⟨fun _ => hq, fun hne => absurd hc hne⟩
  · rcases hend with ⟨hc, -⟩ | ⟨hc, -⟩ | ⟨-, -, hs', -⟩
    · simp [hc]
    · simp [hc]
    · cases hs.symm.trans hs'

/-! ### The status of a run -/

/-- What a status says of `STOP` and `ERR` (R160). -/
theorem statusOf_cases {t : State} {c : Status} (h : statusOf t = some c) :
    (c = .doneHalt ∧ t.stop = .halt) ∨ (c = .doneSuspend ∧ t.stop = .suspend) ∨
      ∃ e, c = .failed e ∧ t.stop = .fault ∧ t.err = some e := by
  unfold statusOf at h
  split at h
  case h_1 hstop => cases h; exact .inl ⟨rfl, hstop⟩
  case h_2 hstop => cases h; exact .inr (.inl ⟨rfl, hstop⟩)
  case h_3 e hstop herr => cases h; exact .inr (.inr ⟨e, rfl, hstop, herr⟩)
  case h_4 => cases h
  case h_5 => cases h

/-- A run keeps the invariant, since every step does. -/
theorem runLoop_inv {fuel : Nat} {s u : State} (h : s.Inv) (hloop : runLoop fuel s = some u) : u.Inv :=
  runLoop_induction (R := fun s u => s.Inv → u.Inv) (fun _ => id)
    (fun s t _ _ hstep hrest h => hrest (stepKeepsInvariant s t h hstep)) hloop h

/-- Settles O58: the status is read from `STOP` and `ERR`, and under the invariant only a machine stopped by `Fault` has a
record. -/
theorem completionStatus : Obligations.CompletionStatus := by
  intro fuel s t c h hrun
  obtain ⟨u, r, haccept, hloop, hstatus⟩ := runToEnd_cases hrun
  have hinv : t.Inv := runLoop_inv (hostOpsKeepInvariant s u .run r h haccept) hloop
  have hnone (hstop : t.stop ≠ .fault) : t.err = none :=
    Option.eq_none_iff_forall_ne_some.2 fun e herr => hstop (idle_of_err hinv herr).2
  refine ⟨runToEnd_notBusy hrun, ?_⟩
  rcases statusOf_cases hstatus with ⟨rfl, hstop⟩ | ⟨rfl, hstop⟩ | hfailed
  · exact .inl ⟨rfl, hstop, hnone (by simp [hstop])⟩
  · exact .inr (.inl ⟨rfl, hstop, hnone (by simp [hstop])⟩)
  · exact .inr (.inr hfailed)

end Sys2Proof.Machine
end

section
/-! The assembler (spec/30_encoding.md R72 to R74): where a line's Words and its label stand in the image. -/

namespace Sys2Proof.Machine

/-- An image is what its lines emit, its labels being all different. -/
theorem assemble_eq_some {ls : List AsmLine} {ws : List Word} (h : assemble ls = some ws) :
    ((labelsFrom 0 ls).map Prod.fst).Nodup ∧ emitLines (labelsFrom 0 ls) ls = some ws := by
  unfold assemble at h
  split_ifs at h with hnodup
  exact ⟨hnodup, h⟩

theorem emitLines_append_cons {env : LabelTable} {before after : List AsmLine} {line : AsmLine} {ws : List Word}
    (h : emitLines env (before ++ line :: after) = some ws) :
    ∃ u v w, emitLines env before = some u ∧ line.words env = some v ∧ emitLines env after = some w ∧
      ws = u ++ v ++ w := by
  obtain ⟨u, x, hu, hx, rfl⟩ := emitLines_append h
  simp only [emitLines, Option.bind_eq_some_iff, Option.map_eq_some_iff] at hx
  obtain ⟨v, hv, w, hw, rfl⟩ := hx
  exact ⟨u, v, w, hu, hv, hw, (List.append_assoc u v w).symm⟩

/-- A label stands for the number of Words emitted before it (R73). -/
theorem lookup_labelsFrom {before after : List AsmLine} {name : String}
    (h : ((labelsFrom 0 (before ++ .label name :: after)).map Prod.fst).Nodup) :
    (labelsFrom 0 (before ++ .label name :: after)).lookup name = some (before.map AsmLine.size).sum := by
  rw [labelsFrom_append, Nat.zero_add, labelsFrom] at h ⊢
  exact lookup_of_nodup h

/-- Settles O60: the emission of a list of lines is that of its parts, and an encoded instruction decodes where it
stands by the round trip. -/
theorem assemblerPlacesLines : Obligations.AssemblerPlacesLines := by
  intro before after line ws h
  obtain ⟨hnodup, hemit⟩ := assemble_eq_some h
  obtain ⟨u, v, w, hu, hv, hw, rfl⟩ := emitLines_append_cons hemit
  refine ⟨u, v, w, hu, hv, hw, rfl, AsmLine.words_length hv, ?_, ?_⟩
  · rintro name rfl
    rw [emitLines_length hu]
    exact lookup_labelsFrom hnodup
  · rintro l rfl
    obtain ⟨i, hi, rfl⟩ := Option.map_eq_some_iff.1 hv
    refine ⟨i, hi, rfl, ?_⟩
    rw [List.append_assoc, List.drop_left]
    exact decodeEncodeRoundTrip i w

end Sys2Proof.Machine
end
